-- ==== Sys2Proof/Word.lean ====
section
/-! DEFINITION. The words of the block: bytes, bus addresses and transaction words (00_scope.md R7, R8; 30_encoding.md R70).
Every value is unsigned; wrapping arithmetic is used nowhere (43_quantizer.md computes in naturals). -/

namespace Sys2Proof

/-- u8: a bus data value, a register byte, a byte of cartridge RAM (R7). -/
abbrev Byte := BitVec 8

/-- u16: a bus address or a little-endian word of the output buffer (R7, R10). -/
abbrev Word16 := BitVec 16

/-- The 25-bit transaction word T = RW<<24 | A<<8 | D (R70). -/
abbrev TWord := BitVec 25

end Sys2Proof
end

