-- ==== Sys2Proof/Syntax.lean ====
section
/-! DEFINITION. The bus transactions: one constructor of `Instr` per row of spec/opcode_table.json (30_encoding.md R74),
each holding the bits of the transaction word its row leaves open (R70), and the pseudo-transactions of R79. -/

namespace Sys2Proof

/-- The transaction classes, in the table's order. `off` is OFF13 = a[12:0], `ign` is IGN = a[12:7], `r` is
M7 = a[6:0], `d` is D (R70). A read's D is ignored by the decoder and is not kept. -/
inductive Instr where
  /-- R100: window 0, D = 0x00. -/
  | wrRamDisable (off : BitVec 13)
  /-- R101: window 0, D = 0x0A. -/
  | wrRamEnable (off : BitVec 13)
  /-- R103: window 0, any other D. -/
  | wrRamCtlIgnored (off : BitVec 13) (d : Byte)
  /-- R102: window 1. -/
  | wrRomBank (off : BitVec 13) (d : Byte)
  /-- R104: window 2, D[7:4] = 0; `bank` is D[3:0]. -/
  | wrRamBank (off : BitVec 13) (bank : BitVec 4)
  /-- R105: window 2, D[7:4] ≠ 0. -/
  | wrRegMode (off : BitVec 13) (d : Byte)
  /-- R106: window 3. -/
  | wrNopW3 (off : BitVec 13) (d : Byte)
  /-- R107: window 4. -/
  | wrNopW4 (off : BitVec 13) (d : Byte)
  /-- R112: window 5 in RAM mode. -/
  | wrCamIgnored (off : BitVec 13) (d : Byte)
  /-- R110: window 5 in register-active mode, M7 = 0, D[0] = 1. -/
  | wrCamTrigger (ign : BitVec 6) (d : Byte)
  /-- R111: window 5 in register-active mode, otherwise. -/
  | wrCamReg (ign : BitVec 6) (r : BitVec 7) (d : Byte)
  /-- R108: window 6. -/
  | wrNopW6 (off : BitVec 13) (d : Byte)
  /-- R109: window 7. -/
  | wrNopW7 (off : BitVec 13) (d : Byte)
  /-- R132: read of window 5 in RAM mode. -/
  | rdCamRam (off : BitVec 13)
  /-- R130: read of window 5 in register-active mode, M7 = 0. -/
  | rdCamCtrl (ign : BitVec 6)
  /-- R131: read of window 5 in register-active mode, M7 ≠ 0. -/
  | rdCamZero (ign : BitVec 6) (r : BitVec 7)
  /-- R133: read of windows 0 to 3; `a` is a[14:0]. -/
  | rdUnroutedLo (a : BitVec 15)
  /-- R133: read of window 4. -/
  | rdUnroutedW4 (off : BitVec 13)
  /-- R133: read of windows 6 and 7; `a` is a[13:0]. -/
  | rdUnroutedHi (a : BitVec 14)
deriving DecidableEq, Repr

/-- The pseudo-transactions of R79. -/
inductive Pseudo where
  | ramOff
  | ramOn
  | romb (n : Byte)
  | ramb (n : BitVec 4)
  | regs
  | setReg (r : BitVec 7) (v : Byte)
  | shoot (b : Byte)
  | getCtrl
  | ramRd (o : BitVec 13)
deriving DecidableEq, Repr

end Sys2Proof
end

