-- ==== Sys2Proof/WellFormed.lean ====
section
/-! DEFINITION. Which instruction terms are transactions: the value conditions of 30_encoding.md R74, and the mode each
row needs (R71). The fields' widths are in the types. -/

namespace Sys2Proof

/-- The value condition of the instruction's row ("other fields" column of R74). -/
def Instr.wellFormed : Instr → Bool
  | .wrRamDisable _ => true
  | .wrRamEnable _ => true
  | .wrRamCtlIgnored _ d => d != 0x00#8 && d != 0x0A#8
  | .wrRomBank _ _ => true
  | .wrRamBank _ _ => true
  | .wrRegMode _ d => d.extractLsb' 4 4 != 0#4
  | .wrNopW3 _ _ => true
  | .wrNopW4 _ _ => true
  | .wrCamIgnored _ _ => true
  | .wrCamTrigger _ d => d.getLsbD 0
  | .wrCamReg _ r d => !(r == 0#7 && d.getLsbD 0)
  | .wrNopW6 _ _ => true
  | .wrNopW7 _ _ => true
  | .rdCamRam _ => true
  | .rdCamCtrl _ => true
  | .rdCamZero _ r => r != 0#7
  | .rdUnroutedLo _ => true
  | .rdUnroutedW4 _ => true
  | .rdUnroutedHi _ => true

/-- The state condition of the instruction's row ("state" column of R74): the value of registersActive it needs, or none
where any will do. -/
def Instr.neededMode : Instr → Option Bool
  | .wrRamDisable _ => none
  | .wrRamEnable _ => none
  | .wrRamCtlIgnored _ _ => none
  | .wrRomBank _ _ => none
  | .wrRamBank _ _ => none
  | .wrRegMode _ _ => none
  | .wrNopW3 _ _ => none
  | .wrNopW4 _ _ => none
  | .wrCamIgnored _ _ => some false
  | .wrCamTrigger _ _ => some true
  | .wrCamReg _ _ _ => some true
  | .wrNopW6 _ _ => none
  | .wrNopW7 _ _ => none
  | .rdCamRam _ => some false
  | .rdCamCtrl _ => some true
  | .rdCamZero _ _ => some true
  | .rdUnroutedLo _ => none
  | .rdUnroutedW4 _ => none
  | .rdUnroutedHi _ => none

/-- The instruction may stand while registersActive has the value `ra`. -/
def Instr.allowedIn (i : Instr) (ra : Bool) : Bool :=
  match i.neededMode with
  | none => true
  | some m => m == ra

/-- A pseudo-transaction is well formed: SETREG 0 needs an even value (R79). -/
def Pseudo.wellFormed : Pseudo → Bool
  | .ramOff => true
  | .ramOn => true
  | .romb _ => true
  | .ramb _ => true
  | .regs => true
  | .setReg r v => !(r == 0#7 && v.getLsbD 0)
  | .shoot _ => true
  | .getCtrl => true
  | .ramRd _ => true

/-- The "needs" column of R79: the value of registersActive the pseudo-transaction is written for. -/
def Pseudo.neededMode : Pseudo → Option Bool
  | .ramOff => none
  | .ramOn => none
  | .romb _ => none
  | .ramb _ => none
  | .regs => none
  | .setReg _ _ => some true
  | .shoot _ => some true
  | .getCtrl => some true
  | .ramRd _ => some false

end Sys2Proof
end

