-- ==== Sys2Proof/Decode.lean ====
section
/-! DEFINITION. The transaction word T (30_encoding.md R70), the decoder (R71, R74), the encoder, the decode table as
data, the pseudo-transactions' expansions (R79), and the reading of a table word. -/

namespace Sys2Proof

/-! ### The fields of T (R70) -/

/-- RW = T[24]: true is a bus write. -/
def fieldRw (t : TWord) : Bool := t.getLsbD 24

/-- A = T[23:8]. -/
def fieldA (t : TWord) : Word16 := t.extractLsb' 8 16

/-- D = T[7:0]. -/
def fieldD (t : TWord) : Byte := t.extractLsb' 0 8

/-- WIN = T[23:21], which is a >> 13. -/
def fieldWin (t : TWord) : BitVec 3 := t.extractLsb' 21 3

/-- OFF13 = T[20:8]. -/
def fieldOff (t : TWord) : BitVec 13 := t.extractLsb' 8 13

/-- IGN = T[20:15]. -/
def fieldIgn (t : TWord) : BitVec 6 := t.extractLsb' 15 6

/-- M7 = T[14:8]. -/
def fieldM7 (t : TWord) : BitVec 7 := t.extractLsb' 8 7

/-- T = (RW << 24) | (a << 8) | D (R70). -/
def busWord (rw : Bool) (a : Word16) (d : Byte) : TWord := BitVec.ofBool rw ++ a ++ d

/-! ### The decoder -/

/-- The write rows of R74 (rows 1 to 13), in their priority order. -/
def decodeWrite (ra : Bool) (t : TWord) : Instr :=
  let win := fieldWin t
  let off := fieldOff t
  let d := fieldD t
  if win = 0#3 then
    if d = 0x00#8 then .wrRamDisable off
    else if d = 0x0A#8 then .wrRamEnable off
    else .wrRamCtlIgnored off d
  else if win = 1#3 then .wrRomBank off d
  else if win = 2#3 then
    if d.extractLsb' 4 4 = 0#4 then .wrRamBank off (d.extractLsb' 0 4)
    else .wrRegMode off d
  else if win = 3#3 then .wrNopW3 off d
  else if win = 4#3 then .wrNopW4 off d
  else if win = 5#3 then
    if ra = false then .wrCamIgnored off d
    else if fieldM7 t = 0#7 ∧ d.getLsbD 0 = true then .wrCamTrigger (fieldIgn t) d
    else .wrCamReg (fieldIgn t) (fieldM7 t) d
  else if win = 6#3 then .wrNopW6 off d
  else .wrNopW7 off d

/-- The read rows of R74 (rows 14 to 19), in their priority order; D is ignored (R70). -/
def decodeRead (ra : Bool) (t : TWord) : Instr :=
  let win := fieldWin t
  if win = 5#3 then
    if ra = false then .rdCamRam (fieldOff t)
    else if fieldM7 t = 0#7 then .rdCamCtrl (fieldIgn t)
    else .rdCamZero (fieldIgn t) (fieldM7 t)
  else if win = 4#3 then .rdUnroutedW4 (fieldOff t)
  else if win.getLsbD 2 = false then .rdUnroutedLo (t.extractLsb' 8 15)
  else .rdUnroutedHi (t.extractLsb' 8 14)

/-- The decoder: the transaction word and the mode bit registersActive, and nothing else (R71). No word is illegal
(R76), so it is total on the 25-bit words. -/
def decode (ra : Bool) (t : TWord) : Instr :=
  if fieldRw t then decodeWrite ra t else decodeRead ra t

/-- Why a number is not read as a transaction. -/
inductive DecodeReject where
  /-- The number has a bit above T[24]: it is no transaction word (R70: one format, 25 bits; log 17). Safe. -/
  | wordTooWide
deriving DecidableEq, Repr

/-- The decoder on any number: a number wider than 25 bits is rejected by name (log 17). -/
def decodeNumber (ra : Bool) (n : Nat) : Except DecodeReject Instr :=
  if n < 2 ^ 25 then .ok (decode ra (BitVec.ofNat 25 n)) else .error .wordTooWide

/-! ### The encoder -/

/-- The transaction word of an instruction, from the fields of R70 and the fixed bits of R74; a read has D = 0. -/
def encode : Instr → TWord
  | .wrRamDisable off => busWord true (0#3 ++ off) 0x00#8
  | .wrRamEnable off => busWord true (0#3 ++ off) 0x0A#8
  | .wrRamCtlIgnored off d => busWord true (0#3 ++ off) d
  | .wrRomBank off d => busWord true (1#3 ++ off) d
  | .wrRamBank off bank => busWord true (2#3 ++ off) (0#4 ++ bank)
  | .wrRegMode off d => busWord true (2#3 ++ off) d
  | .wrNopW3 off d => busWord true (3#3 ++ off) d
  | .wrNopW4 off d => busWord true (4#3 ++ off) d
  | .wrCamIgnored off d => busWord true (5#3 ++ off) d
  | .wrCamTrigger ign d => busWord true (5#3 ++ ign ++ 0#7) d
  | .wrCamReg ign r d => busWord true (5#3 ++ ign ++ r) d
  | .wrNopW6 off d => busWord true (6#3 ++ off) d
  | .wrNopW7 off d => busWord true (7#3 ++ off) d
  | .rdCamRam off => busWord false (5#3 ++ off) 0x00#8
  | .rdCamCtrl ign => busWord false (5#3 ++ ign ++ 0#7) 0x00#8
  | .rdCamZero ign r => busWord false (5#3 ++ ign ++ r) 0x00#8
  | .rdUnroutedLo a => busWord false (0#1 ++ a) 0x00#8
  | .rdUnroutedW4 off => busWord false (4#3 ++ off) 0x00#8
  | .rdUnroutedHi a => busWord false (3#2 ++ a) 0x00#8

/-! ### The decode table of R74 as data -/

/-- The row of the instruction in R74, by its priority number. -/
def Instr.row : Instr → Nat
  | .wrRamDisable _ => 1
  | .wrRamEnable _ => 2
  | .wrRamCtlIgnored _ _ => 3
  | .wrRomBank _ _ => 4
  | .wrRamBank _ _ => 5
  | .wrRegMode _ _ => 6
  | .wrNopW3 _ _ => 7
  | .wrNopW4 _ _ => 8
  | .wrCamIgnored _ _ => 9
  | .wrCamTrigger _ _ => 10
  | .wrCamReg _ _ _ => 11
  | .wrNopW6 _ _ => 12
  | .wrNopW7 _ _ => 13
  | .rdCamRam _ => 14
  | .rdCamCtrl _ => 15
  | .rdCamZero _ _ => 16
  | .rdUnroutedLo _ => 17
  | .rdUnroutedW4 _ => 18
  | .rdUnroutedHi _ => 19

/-- One row of R74: its priority, the bits it tests, the values they must have, and its state condition. -/
structure OpcodeRow where
  prio : Nat
  mask : TWord
  pattern : TWord
  mode : Option Bool
deriving DecidableEq, Repr

/-- The table of R74, in priority order. -/
def opcodeRows : List OpcodeRow :=
  [ ⟨1, 0x1E000FF, 0x1000000, none⟩, ⟨2, 0x1E000FF, 0x100000A, none⟩, ⟨3, 0x1E00000, 0x1000000, none⟩,
    ⟨4, 0x1E00000, 0x1200000, none⟩, ⟨5, 0x1E000F0, 0x1400000, none⟩, ⟨6, 0x1E00000, 0x1400000, none⟩,
    ⟨7, 0x1E00000, 0x1600000, none⟩, ⟨8, 0x1E00000, 0x1800000, none⟩, ⟨9, 0x1E00000, 0x1A00000, some false⟩,
    ⟨10, 0x1E07F01, 0x1A00001, some true⟩, ⟨11, 0x1E00000, 0x1A00000, some true⟩, ⟨12, 0x1E00000, 0x1C00000, none⟩,
    ⟨13, 0x1E00000, 0x1E00000, none⟩, ⟨14, 0x1E00000, 0x0A00000, some false⟩, ⟨15, 0x1E07F00, 0x0A00000, some true⟩,
    ⟨16, 0x1E00000, 0x0A00000, some true⟩, ⟨17, 0x1800000, 0x0000000, none⟩, ⟨18, 0x1E00000, 0x0800000, none⟩,
    ⟨19, 0x1C00000, 0x0C00000, none⟩ ]

/-- "mask and match fit T and [the] state condition holds" (R74). -/
def OpcodeRow.fits (r : OpcodeRow) (ra : Bool) (t : TWord) : Bool :=
  t &&& r.mask == r.pattern && (match r.mode with | none => true | some m => m == ra)

/-- The first row, in priority order, that fits (R74). -/
def firstFit (ra : Bool) (t : TWord) : Option OpcodeRow := opcodeRows.find? fun r => r.fits ra t

/-! ### Pseudo-transactions (R79) -/

/-- The one transaction word a pseudo-transaction stands for (R79). -/
def Pseudo.expand : Pseudo → TWord
  | .ramOff => busWord true 0x0000#16 0x00#8
  | .ramOn => busWord true 0x0000#16 0x0A#8
  | .romb n => busWord true 0x2000#16 n
  | .ramb n => busWord true 0x4000#16 (0#4 ++ n)
  | .regs => busWord true 0x4000#16 0x10#8
  | .setReg r v => busWord true (0xA000#16 + r.setWidth 16) v
  | .shoot b => busWord true 0xA000#16 (b ||| 0x01#8)
  | .getCtrl => busWord false 0xA000#16 0x00#8
  | .ramRd o => busWord false (0xA000#16 + o.setWidth 16) 0x00#8

/-! ### Reading a table word without a state -/

/-- The mode a bare table word is read in: the table's bits do not hold registersActive, and rows 9 to 11 and 14 to 16
share their words. DESIGN CHOICE, safe (log 2): a bare word is read in register-active mode, where window 5 has the
most rows. -/
def tableMode : Bool := true

/-- The instruction the decoder reads from a table word of `nbits` bits (numbered as opcode_table.json numbers them),
none where the decoder rejects it. The word is read in the mode `tableMode` (log 2). -/
def decodeTableWord (nbits w : Nat) : Option Instr :=
  match decodeNumber tableMode (w % 2 ^ nbits) with
  | .ok i => some i
  | .error _ => none

end Sys2Proof
end

