-- ==== Sys2Proof/Config.lean ====
section
/-! DEFINITION. What a session fixes (00_scope.md R6) and the two values the spec leaves free: `Config.disabledRead`
(R132, D7) and `Config.luma` (R161, D17). The configuration is plain data and lives in `State.config` (log 3). -/

namespace Sys2Proof

/-- The pixel widths a colour format may have: 8, 16 or 32 bits (R6, R160). -/
inductive PixelWidth where
  | w8 | w16 | w32
deriving DecidableEq, Repr

/-- The width in bits. -/
def PixelWidth.bits : PixelWidth → Nat
  | .w8 => 8
  | .w16 => 16
  | .w32 => 32

/-- A colour format tag: 8-bit luminance L8, or any other packed format, named by its pixel width and a variant
number (R6, R160: the exact set is the parameter FORMATS; DESIGN CHOICE, safe, log 15). -/
inductive Format where
  | l8
  | packed (width : PixelWidth) (variant : Nat)
deriving DecidableEq, Repr

/-- BITS(fmt): how many bits one pixel element has (R160). -/
def Format.bits : Format → Nat
  | .l8 => 8
  | .packed w _ => w.bits

/-- CAPTURE_MODE (R6, D12). -/
inductive CaptureMode where
  | weighted | raw
deriving DecidableEq, Repr

/-- RAW_UNDEF_POLICY (R6, D14). -/
inductive RawUndefPolicy where
  | fault | nearest
deriving DecidableEq, Repr

/-- HOST_RAM_WRITE (R6, D25): what the host does with a window-5 write in RAM mode. -/
inductive HostRamWrite where
  | none | store
deriving DecidableEq, Repr

/-- The parameters of R6. W and H are recorded so that a session with other sizes can be refused (R208). -/
structure Config where
  /-- N, the size of the register file (R20). -/
  regCount : Nat
  /-- W (R6). -/
  width : Nat
  /-- H (R6). -/
  height : Nat
  /-- RAM_BYTES (R6, D6). -/
  ramBytes : Nat
  /-- RAM_BANK_BASE(n), n in 0..15 (R6, D6). -/
  ramBankBase : Vector Nat 16
  /-- RAM_PRESENT (R6, R205). -/
  ramPresent : Bool
  captureMode : CaptureMode
  rawUndefPolicy : RawUndefPolicy
  /-- FORMATS: the supported colour formats (R6, D17). -/
  formats : List Format
  hostRamWrite : HostRamWrite
deriving DecidableEq, Repr

/-- The suggested defaults of R6. FORMATS = [L8] and HOST_RAM_WRITE = NONE have no default in the spec: DESIGN CHOICE,
safe: every claim over all states covers every other choice (log 3). -/
def Config.default : Config where
  regCount := 54
  width := 128
  height := 112
  ramBytes := 0x20000
  ramBankBase := #v[0x00000, 0x02000, 0x04000, 0x06000, 0x08000, 0x0A000, 0x0C000, 0x0E000,
                    0x10000, 0x12000, 0x14000, 0x16000, 0x18000, 0x1A000, 0x1C000, 0x1E000]
  ramPresent := true
  captureMode := .weighted
  rawUndefPolicy := .fault
  formats := [.l8]
  hostRamWrite := .none

/-- DISABLED_READ: what a RAM-mode read returns while RAM access is disabled or no RAM backs it, any byte under no law
(R132, D7). FREE VALUE, safe (log 7): applied to the draw counter `State.draws`, so every draw is a new free byte. -/
opaque Config.disabledRead : Nat → Byte

/-- LUMA of every format but L8: the colour-conversion collaborator's function of (fmt, p) alone (R161, D17).
FREE VALUE, safe (log 8). -/
opaque Config.luma (fmt : Format) (p : BitVec fmt.bits) : Byte

end Sys2Proof
end

