-- ==== Sys2Proof/Machine/State.lean ====
section
/-! DEFINITION. The state of the block as plain data (10_state.md), what a step can end in (60_exceptions.md R206, R207,
R208), and the state at session start (R40, R220, R221). -/

namespace Sys2Proof.Machine

/-- A frame sample (R141, R160): pixel elements of BITS(fmt) bits, a stride counted in elements (D18), a format tag.
The format comes first because the elements' width is the format's. -/
structure Frame where
  fmt : Format
  stride : Nat
  data : List (BitVec fmt.bits)
deriving DecidableEq, Repr

/-- The diagnostic codes (R200, R201, R202). -/
inductive DiagCode where
  | ctrlUnrecognized
  | unmapped
  | unsupportedFormat
deriving DecidableEq, Repr

/-- The numeric code of a diagnostic (R200: 1, R201: 2, R202: 3). -/
def DiagCode.number : DiagCode → Nat
  | .ctrlUnrecognized => 1
  | .unmapped => 2
  | .unsupportedFormat => 3

/-- The events of the output history (R11). -/
inductive Event where
  | switchRomBank (n : BitVec 6)
  | switchRamBank (n : BitVec 4)
  | diag (code : DiagCode)
deriving DecidableEq, Repr

/-- What the host may do next (R214; logs 1 and 12). -/
inductive HostMove where
  /-- Deliver one bus transaction, as its 25-bit word (R70). -/
  | transaction (t : TWord)
  /-- The persistence layer has consumed the dirty flag: clear it (R32, D23). -/
  | clearDirty
  /-- The host stores one byte of cartridge RAM itself, between transactions (R64, R214, 95_test_vectors.md P5). -/
  | storeRam (off : Nat) (v : Byte)
deriving DecidableEq, Repr

/-- Cartridge RAM (R52): listed bytes in strictly rising address order, none equal to what an unlisted byte reads as
(`Sys2Proof.Machine.unlistedByte`, log 5). -/
abbrev Memory := List Host.Cell

/-- Everything the spec gives the machine. -/
structure State where
  /-- The session's parameters (R6); no step changes them (log 3). -/
  config : Config
  /-- The control-register bank, exactly N bytes (R20, log 16). -/
  regs : List Byte
  /-- R28. -/
  registersActive : Bool
  /-- R29. -/
  ramEnable : Bool
  /-- R30. -/
  ramBankSel : BitVec 4
  /-- R31. -/
  directRamMap : Bool
  /-- R32. -/
  dirty : Bool
  /-- The cartridge RAM (R52). -/
  sram : Memory
  /-- The output history HIST, oldest first (R11, R36; log 19). -/
  hist : List Event
  /-- The sticky mark FAULTED (R36, R206). -/
  faulted : Bool
  /-- The sticky mark REFUSED (R36, R207). -/
  refused : Bool
  /-- The model's own: what the host does next, oldest first (log 1). -/
  inputs : List HostMove
  /-- The model's own: what the image source answers next (log 6). -/
  images : List (Option Frame)
  /-- The model's own: what the last completed bus read returned (log 9). -/
  readResult : Option Byte
  /-- The model's own: how many free values DISABLED_READ have been drawn (log 7). -/
  draws : Nat
deriving DecidableEq, Repr

/-- Why the machine stops with a fault. -/
inductive Fault where
  /-- Fault(RAW_LUMA_UNDEFINED, (x, y, L)) (R206): raised by a trigger write whose raw capture, under RAW_UNDEF_POLICY =
  FAULT, meets a luminance outside the four levels (R149, R167). `left` is the state it leaves, FAULTED set, the pixels
  before it packed, regs[0] not stored (R149). Safe: the undefined code gets no value. -/
  | rawLumaUndefined (x y : Nat) (l : Byte) (left : State)
deriving DecidableEq, Repr

/-- Why the model gives a transaction no meaning (R207, R208). `left` is the state left, REFUSED set (log 10). -/
inductive Refusal where
  /-- An instruction whose arm has no meaning yet. Safe. No arm answers with it. -/
  | notModelled (mnemonic : String)
  /-- REFUSE_CONFIG (R208): raised by `step` where the session's configuration breaks a constraint of R6. Safe. -/
  | config (left : State)
  /-- REFUSE_READ_UNROUTED (R133): raised by a read outside window 5, which the host does not deliver (D8). Safe. -/
  | readUnrouted (left : State)
  /-- REFUSE_SHORT_FRAME (R141): raised by a trigger write whose frame, in a supported format, does not cover W x H
  (D18). Safe. -/
  | shortFrame (left : State)
  /-- REFUSE_NO_RAM (R140, R148): raised by a trigger write that receives a frame while RAM_PRESENT = false (D21).
  Safe. -/
  | noRam (left : State)
  /-- REFUSE_RAM_RANGE (R10, R132): raised by a RAM-mode read, a host store or a capture whose offset lies outside sram
  (D6). Safe. -/
  | ramRange (left : State)
deriving DecidableEq, Repr

/-- The start of a cartridge session (R220, R40) with a given configuration and the launch sram the host supplies
(R221): the register and bit values are those of R40 (the spec's own choice D11; log 4). -/
def State.launch (config : Config) (sram : Memory) : State where
  config := config
  regs := List.replicate config.regCount 0x00#8
  registersActive := false
  ramEnable := false
  ramBankSel := 0#4
  directRamMap := true
  dirty := false
  sram := sram
  hist := []
  faulted := false
  refused := false
  inputs := []
  images := []
  readResult := none
  draws := 0

/-- The machine right after reset: session start with the default configuration of R6 and nothing listed in sram
(log 5). -/
def State.reset : State := State.launch Config.default []

end Sys2Proof.Machine
end

