-- ==== Sys2Proof/Machine/Ops.lean ====
section
/-! DEFINITION. The named operations over cartridge RAM (00_scope.md R10), registers (R9), the output history (R11), the
image source (R141), the read result (R12), the ending of a step in a fault or a refusal (R206, R207), and the
configuration check (R208). -/

namespace Sys2Proof.Machine

/-! ### Cartridge RAM -/

/-- What a byte of sram reads as while it is not listed. DESIGN CHOICE, unsafe (log 5): the launch contents are the
host's (R221); a claim over every state covers them all. -/
def unlistedByte : Byte := 0x00#8

/-- MemRead(off, 1) (R10). The list rises, so the search ends at the first greater address. -/
def Memory.read : Memory → Nat → Byte
  | [], _ => unlistedByte
  | (k, v) :: m, a => if a < k then unlistedByte else if a = k then v else Memory.read m a

/-- The cell list to put in front of `m` for byte `v` at `a`: nothing where an unlisted byte already reads as `v`. -/
def Memory.cell (a : Nat) (v : Byte) (m : Memory) : Memory := if v = unlistedByte then m else (a, v) :: m

/-- MemWrite(off, 1, v) (R10), keeping the canonical form. -/
def Memory.write : Memory → Nat → Byte → Memory
  | [], a, v => Memory.cell a v []
  | (k, w) :: m, a, v =>
    if a < k then Memory.cell a v ((k, w) :: m)
    else if a = k then Memory.cell a v m
    else (k, w) :: Memory.write m a v

/-- MemRead(off, 2): the little-endian word, sram[off+1] high (R10, R56). -/
def Memory.read16 (m : Memory) (off : Nat) : Word16 := m.read (off + 1) ++ m.read off

/-- MemWrite(off, 2, v): the low byte at off, the high byte at off + 1 (R10, R56). -/
def Memory.write16 (m : Memory) (off : Nat) (v : Word16) : Memory :=
  (m.write off (v.extractLsb' 0 8)).write (off + 1) (v.extractLsb' 8 8)

/-- The byte is listed only where it must be: addresses strictly rise from `lo`, and no cell holds the unlisted byte. -/
def Memory.wfFrom : Nat → Memory → Bool
  | _, [] => true
  | lo, (k, v) :: m => decide (lo ≤ k) && decide (v ≠ unlistedByte) && Memory.wfFrom (k + 1) m

/-- The canonical form of a memory. -/
def Memory.wf (m : Memory) : Bool := Memory.wfFrom 0 m

/-- Every listed byte lies inside sram, offsets 0 .. bytes-1 (R52). -/
def Memory.within (m : Memory) (bytes : Nat) : Bool := m.all fun c => decide (c.1 < bytes)

/-! ### Registers, history, image source, read result -/

/-- regs[i] (R9). Outside the file, which no rule reads, 0 (log 16). -/
def State.reg (s : State) (i : Nat) : Byte := s.regs.getD i 0x00#8

/-- regs[i] <- v (R9). -/
def State.setReg (s : State) (i : Nat) (v : Byte) : State := { s with regs := s.regs.set i v }

/-- sram <- m. -/
def State.setSram (s : State) (m : Memory) : State := { s with sram := m }

/-- emit E (R11). -/
def State.emit (s : State) (e : Event) : State := { s with hist := s.hist ++ [e] }

/-- The bus read returns v (R12, log 9). -/
def State.answerRead (s : State) (v : Byte) : State := { s with readResult := some v }

/-- The bus read returns the free byte DISABLED_READ (R132, D7; log 7). -/
def State.answerDisabledRead (s : State) : State :=
  { s with readResult := some (Config.disabledRead s.draws), draws := s.draws + 1 }

/-- RequestImage(): the image source's next answer; no answer left is NONE (R141, log 6). -/
def State.requestedImage (s : State) : Option Frame := (s.images.head?).join

/-- The state after RequestImage(): the answer is used up (R141 "at most once per capture", R54). -/
def State.afterRequest (s : State) : State := { s with images := s.images.tail }

/-- sram[off] exists (R52): there is a cartridge RAM and the offset is inside it. -/
def State.hasRamByte (s : State) (off : Nat) : Bool := s.config.ramPresent && decide (off < s.config.ramBytes)

/-! ### Ending a step -/

/-- What a step of this machine ends in. -/
abbrev Result := Host.Outcome State Fault Refusal

/-- FAULTED <- 1 (R206). -/
def State.markFaulted (s : State) : State := { s with faulted := true }

/-- REFUSED <- 1 (R207). -/
def State.markRefused (s : State) : State := { s with refused := true }

/-- raise Fault(RAW_LUMA_UNDEFINED, (x, y, L)): the step ends, FAULTED is set (R206). -/
def raiseFault (x y : Nat) (l : Byte) (s : State) : Result := .fault (.rawLumaUndefined x y l s.markFaulted)

/-- refuse Reason: the step ends, REFUSED is set (R207). -/
def refuse (reason : State → Refusal) (s : State) : Result := .refused (reason s.markRefused)

/-- Go on with `k` where the first part of a step ended in a next state (R9: in the order written). -/
def andThen (r : Result) (k : State → Result) : Result :=
  match r with
  | .next s => k s
  | .fault f => .fault f
  | .refused f => .refused f

/-! ### Configuration -/

/-- W (R6). -/
def frameWidth : Nat := 128

/-- H (R6). -/
def frameHeight : Nat := 112

/-- OUT_BASE (R6). -/
def outBase : Nat := 0x100

/-- OUT_SIZE = H * W / 4 (R6). -/
def outSize : Nat := frameHeight * frameWidth / 4

/-- The constraints of R208, checked at every step (log 14). LUMA(L8, p) = p and the two choices' ranges hold by
construction (`Sys2Proof.Machine.luma`, the types `CaptureMode` and `RawUndefPolicy`). -/
def configAdmissible (c : Config) : Bool :=
  decide (54 ≤ c.regCount) && decide (c.regCount ≤ 128) && decide (c.width = frameWidth) &&
  decide (c.height = frameHeight) && decide (outBase + outSize ≤ c.ramBytes) && c.formats.contains .l8

end Sys2Proof.Machine
end

