-- ==== Sys2Proof/Machine/Flags.lean ====
section
/-! DEFINITION. The mode and control bits (10_state.md R28 to R33), written together as the rules write them. -/

namespace Sys2Proof.Machine

/-- S.ramEnable <- b (R29, R100, R101). -/
def State.setRamEnable (s : State) (b : Bool) : State := { s with ramEnable := b }

/-- Enter RAM mode with bank n: ramBankSel <- n, registersActive <- 0, directRamMap <- 1 (R104). -/
def State.enterRamMode (s : State) (n : BitVec 4) : State :=
  { s with ramBankSel := n, registersActive := false, directRamMap := true }

/-- Enter register-active mode: registersActive <- 1, directRamMap <- 0 (R105). -/
def State.enterRegisterMode (s : State) : State := { s with registersActive := true, directRamMap := false }

/-- S.dirty <- b: 1 by a trigger write (R110), 0 by the host only (R32, D23). -/
def State.setDirty (s : State) (b : Bool) : State := { s with dirty := b }

end Sys2Proof.Machine
end

