-- ==== Sys2Proof/Machine/Operands.lean ====
section
/-! DEFINITION. Operand assembly: what write transactions take from D (30_encoding.md R72), what the capture takes from
the registers (R73; 10_state.md R25, R26), and the RAM-mode read's offset (41_bus_reads.md R132). -/

namespace Sys2Proof.Machine

/-- ROMB = D[5:0]; D[7:6] are ignored (R72). -/
def romBankOf (d : Byte) : BitVec 6 := d.extractLsb' 0 6

/-- The value a trigger write stores: D & 0x06 (R72, R110). -/
def triggerStored (d : Byte) : Byte := d &&& 0x06#8

/-- EXPOSURE = regs[2] * 256 + regs[3], regs[2] the high byte (R25, R73). -/
def exposure (s : State) : Word16 := s.reg 2 ++ s.reg 3

/-- RAM_BANK_BASE(S.ramBankSel) (R6). -/
def ramBankBaseOf (s : State) : Nat := s.config.ramBankBase[s.ramBankSel.toNat]

/-- The sram offset of a window-5 access in RAM mode: RAM_BANK_BASE(S.ramBankSel) + (a & 0x1FFF) (R132). -/
def ramModeOffset (s : State) (off : BitVec 13) : Nat := ramBankBaseOf s + off.toNat

/-- MINDEX(x, y) = 3 * ((x mod 4) + 4 * (y mod 4)) (R163, R73). -/
def mindex (x y : Nat) : Nat := 3 * (x % 4 + 4 * (y % 4))

/-- The dark threshold regs[i + 6] (R164). -/
def darkAt (s : State) (i : Nat) : Byte := s.reg (i + 6)

/-- The mid threshold regs[i + 7] (R164). -/
def midAt (s : State) (i : Nat) : Byte := s.reg (i + 7)

/-- The light threshold regs[i + 8] (R164). -/
def lightAt (s : State) (i : Nat) : Byte := s.reg (i + 8)

end Sys2Proof.Machine
end

