-- ==== Sys2Proof/Machine/BankSelect.lean ====
section
/-! DEFINITION. Windows 1 and 2: ROM bank, RAM bank, register-active mode (40_bus_writes.md R102, R104, R105). -/

namespace Sys2Proof.Machine

/-- WR_ROM_BANK (R102): the primitive is the host's; the block only passes D & 0x3F. -/
def execWrRomBank (_off : BitVec 13) (d : Byte) (s : State) : Result := .next (s.emit (.switchRomBank (romBankOf d)))

/-- WR_RAM_BANK (R104). -/
def execWrRamBank (_off : BitVec 13) (bank : BitVec 4) (s : State) : Result :=
  .next ((s.emit (.switchRamBank bank)).enterRamMode bank)

/-- WR_REG_MODE (R105): no bank number is taken from D. -/
def execWrRegMode (_off : BitVec 13) (_d : Byte) (s : State) : Result := .next s.enterRegisterMode

end Sys2Proof.Machine
end

