-- ==== Sys2Proof/Machine/CameraReads.lean ====
section
/-! DEFINITION. Window 5 reads (41_bus_reads.md R130 to R132). A read changes nothing of the block (R61); what it
returns is kept in `State.readResult` (log 9). -/

namespace Sys2Proof.Machine

/-- RD_CAM_CTRL (R130). -/
def execRdCamCtrl (_ign : BitVec 6) (s : State) : Result := .next (s.answerRead (s.reg 0))

/-- RD_CAM_ZERO (R131). -/
def execRdCamZero (_ign : BitVec 6) (_r : BitVec 7) (s : State) : Result := .next (s.answerRead 0x00#8)

/-- RD_CAM_RAM (R132): DISABLED_READ while RAM access is disabled or no RAM backs it, else the byte of the selected
bank, refused where the configured base puts it outside sram. -/
def execRdCamRam (off : BitVec 13) (s : State) : Result :=
  if (s.config.ramPresent && s.ramEnable) = false then .next s.answerDisabledRead
  else if s.config.ramBytes ≤ ramModeOffset s off then refuse .ramRange s
  else .next (s.answerRead (s.sram.read (ramModeOffset s off)))

end Sys2Proof.Machine
end

