-- ==== Sys2Proof/Machine/Quantizer.lean ====
section
/-! DEFINITION. The image quantizer (43_quantizer.md), in exact natural numbers (D19). -/

namespace Sys2Proof.Machine

/-- The four codes of R168. -/
inductive Code where
  /-- 0x101, "blackest". -/
  | c101
  /-- 0x100. -/
  | c100
  /-- 0x001. -/
  | c001
  /-- 0x000. -/
  | c000
deriving DecidableEq, Repr

/-- The 16-bit pattern of a code: bit 0 for bitplane 0, bit 8 for bitplane 1 (R168). -/
def codePattern : Code → Word16
  | .c101 => 0x101#16
  | .c100 => 0x100#16
  | .c001 => 0x001#16
  | .c000 => 0x000#16

/-- EXTRACT(f, x, y) = f.data[y * f.stride + x] (R160). A frame that reaches here covers W x H (R141). -/
def extract (f : Frame) (x y : Nat) : BitVec f.fmt.bits := f.data.getD (y * f.stride + x) 0

/-- LUMA(fmt, p): the identity on L8, the collaborator's free function on every other format (R161, D17; log 8). -/
def luma : (fmt : Format) → BitVec fmt.bits → Byte
  | .l8, p => p
  | .packed w n, p => Config.luma (.packed w n) p

/-- EXPOSE(L, E) = ((L + 1) * E) / 256 (R162). -/
def expose (l : Byte) (e : Word16) : Nat := (l.toNat + 1) * e.toNat / 256

/-- QUANT(adj, d, m, l): the ordered cascade of strict tests, evaluated as written for every triple (R165, R166). -/
def quant (adj : Nat) (d m l : Byte) : Code :=
  if adj < d.toNat then .c101
  else if adj < m.toNat then .c100
  else if adj < l.toNat then .c001
  else .c000

/-- The nearest of the four raw levels; no ties exist (R167, NEAREST). -/
def nearestLevel (l : Byte) : Byte :=
  if l.toNat ≤ 42 then 0#8
  else if l.toNat ≤ 127 then 85#8
  else if l.toNat ≤ 212 then 170#8
  else 255#8

/-- The code of one of the four raw levels, none for any other luminance (R167; the codes of 0, 170 and 255 are the
spec's choice D13). -/
def rawLevelCode (l : Byte) : Option Code :=
  if l = 0#8 then some .c101
  else if l = 85#8 then some .c100
  else if l = 170#8 then some .c001
  else if l = 255#8 then some .c000
  else none

/-- RAWMAP(L) under a RAW_UNDEF_POLICY; none is the fault (R167, D14). -/
def rawMap (policy : RawUndefPolicy) (l : Byte) : Option Code :=
  match policy with
  | .fault => rawLevelCode l
  | .nearest => rawLevelCode (nearestLevel l)

/-- L of a pixel: EXTRACT, then LUMA (R144, R160, R161). -/
def pixelLuma (f : Frame) (x y : Nat) : Byte := luma f.fmt (extract f x y)

/-- The weighted code of a pixel: EXPOSE, MINDEX, the threshold fetch and QUANT (R140, R144). -/
def weightedCode (s : State) (f : Frame) (x y : Nat) : Code :=
  quant (expose (pixelLuma f x y) (exposure s)) (darkAt s (mindex x y)) (midAt s (mindex x y)) (lightAt s (mindex x y))

/-- The code of a pixel in the session's capture mode, or the luminance that has none (R140, R148, R167). -/
def pixelCode (s : State) (f : Frame) (x y : Nat) : Except Byte Code :=
  match s.config.captureMode with
  | .weighted => .ok (weightedCode s f x y)
  | .raw =>
    match rawMap s.config.rawUndefPolicy (pixelLuma f x y) with
    | some c => .ok c
    | none => .error (pixelLuma f x y)

end Sys2Proof.Machine
end

