-- ==== Sys2Proof/Machine/Packer.lean ====
section
/-! DEFINITION. The 2-bit tile-format packer (44_tile_packer.md). -/

namespace Sys2Proof.Machine

/-- tileOffset(x, y) (R180). -/
def tileOffset (x y : Nat) : Nat := (((x / 8) % 16) * 8 + y % 8) * 2 + (y - y % 8) * 32

/-- addr(x, y) = 0x100 + tileOffset(x, y) (R180). -/
def pixelAddr (x y : Nat) : Nat := outBase + tileOffset x y

/-- s = 7 - (x mod 8) (R182). -/
def pixelShift (x : Nat) : Nat := 7 - x % 8

/-- PACK(x, y, code): 16-bit little-endian load, OR, store (R183). -/
def pack (x y : Nat) (c : Code) (m : Memory) : Memory :=
  m.write16 (pixelAddr x y) (m.read16 (pixelAddr x y) ||| codePattern c <<< pixelShift x)

/-- The pixel loop over a list of pixels in their order: pack each pixel's code until one has none; that pixel and its
luminance end the loop (R140, R148, R149). -/
def packPixels (codeOf : Nat → Nat → Except Byte Code) : List (Nat × Nat) → Memory → Memory × Option (Nat × Nat × Byte)
  | [], m => (m, none)
  | (x, y) :: ps, m =>
    match codeOf x y with
    | .ok c => packPixels codeOf ps (pack x y c m)
    | .error l => (m, some (x, y, l))

end Sys2Proof.Machine
end

