-- ==== Sys2Proof/Machine/Capture.lean ====
section
/-! DEFINITION. The capture sequence (42_capture.md), run only by a trigger write and wholly inside its step (R60). The
weighted form (R140) and the raw form (R148) share everything but the pixel's code (D15), which
`Sys2Proof.Machine.pixelCode` takes from the session's CAPTURE_MODE. -/

namespace Sys2Proof.Machine

/-- COVERS(f, W, H): stride at least W and at least (H - 1) * stride + W elements (R141). -/
def covers (f : Frame) : Bool :=
  decide (frameWidth ≤ f.stride) && decide ((frameHeight - 1) * f.stride + frameWidth ≤ f.data.length)

/-- Byte stores of 0x00 at every offset of [lo, hi) (R59, R142), in one pass: in the canonical form a byte that reads as
0x00 is not listed. `Sys2Proof.Machine.zeroRange_eq_stores` proves it equal to the stores made one by one. -/
def zeroRange (lo hi : Nat) : Memory → Memory
  | [] => []
  | (k, w) :: m => if lo ≤ k ∧ k < hi then zeroRange lo hi m else (k, w) :: zeroRange lo hi m

/-- "Zero the entire output region" (R142): sram[0x100 .. 0xEFF]. -/
def zeroBuffer (m : Memory) : Memory := zeroRange outBase (outBase + outSize) m

/-- The pixels in the loop's order: y outer, x inner (R143, D16). Irreducible, so that no unifier unrolls it. -/
@[irreducible] def pixelOrder : List (Nat × Nat) :=
  (List.range frameHeight).flatMap fun y => (List.range frameWidth).map fun x => (x, y)

/-- The per-pixel loop on a frame that covers W x H (R140, R148), ended by a raw fault (R149). -/
def packFrame (f : Frame) (s : State) : Result :=
  match packPixels (pixelCode s f) pixelOrder s.sram with
  | (m, none) => .next (s.setSram m)
  | (m, some (x, y, l)) => raiseFault x y l (s.setSram m)

/-- The capture on a zeroed buffer: the format check (R146), the coverage check (R141), the loop. -/
def captureZeroed (f : Frame) (s : State) : Result :=
  if s.config.formats.contains f.fmt = false then .next (s.emit (.diag .unsupportedFormat))
  else if covers f = false then refuse .shortFrame s
  else packFrame f s

/-- The capture of a frame the image source has given (R140, R210 steps 5 to 9). R10's range check of the buffer's
accesses is made once, before the zeroing: with RAM_BYTES ≥ 0xF00 no access of the capture leaves sram (R185; log 13). -/
def captureFrame (f : Frame) (s : State) : Result :=
  if s.config.ramPresent = false then refuse .noRam s
  else if s.config.ramBytes < outBase + outSize then refuse .ramRange s
  else captureZeroed f (s.setSram (zeroBuffer s.sram))

/-- CAPTURE() (R140, R148): request once; no frame is no capture (R145). -/
def capture (s : State) : Result :=
  match s.requestedImage with
  | none => .next s.afterRequest
  | some f => captureFrame f s.afterRequest

end Sys2Proof.Machine
end

