-- ==== Sys2Proof/Machine/CameraWrites.lean ====
section
/-! DEFINITION. Window 5 writes: ignored in RAM mode, the capture trigger, register writes (40_bus_writes.md R110 to
R112). -/

namespace Sys2Proof.Machine

/-- WR_CAM_IGNORED (R112): the block does nothing. What the host may do with the write is `hostFollowUp` (log 11). -/
def execWrCamIgnored (_off : BitVec 13) (_d : Byte) (s : State) : Result := .next s

/-- WR_CAM_TRIGGER (R110, R210): dirty, CAPTURE, then regs[0] <- D & 0x06, which a fault or refusal skips. -/
def execWrCamTrigger (_ign : BitVec 6) (d : Byte) (s : State) : Result :=
  andThen (capture (s.setDirty true)) fun s' => .next (s'.setReg 0 (triggerStored d))

/-- WR_CAM_REG (R111): stored unmodified inside the file, dropped outside it. -/
def execWrCamReg (_ign : BitVec 6) (r : BitVec 7) (d : Byte) (s : State) : Result :=
  if r.toNat < s.config.regCount then .next (s.setReg r.toNat d) else .next s

end Sys2Proof.Machine
end

