-- ==== Sys2Proof/Machine/NopWrites.lean ====
section
/-! DEFINITION. Windows 3, 4, 6 and 7: no-ops that report a diagnostic (40_bus_writes.md R106 to R109; R201). -/

namespace Sys2Proof.Machine

/-- A write to a window that holds nothing: Diag(DIAG_UNMAPPED) and nothing else (R201). -/
def unmappedWrite (s : State) : Result := .next (s.emit (.diag .unmapped))

/-- WR_NOP_W3 (R106). -/
def execWrNopW3 (_off : BitVec 13) (_d : Byte) (s : State) : Result := unmappedWrite s

/-- WR_NOP_W4 (R107). -/
def execWrNopW4 (_off : BitVec 13) (_d : Byte) (s : State) : Result := unmappedWrite s

/-- WR_NOP_W6 (R108). -/
def execWrNopW6 (_off : BitVec 13) (_d : Byte) (s : State) : Result := unmappedWrite s

/-- WR_NOP_W7 (R109). -/
def execWrNopW7 (_off : BitVec 13) (_d : Byte) (s : State) : Result := unmappedWrite s

end Sys2Proof.Machine
end

