-- ==== Sys2Proof/Machine/RamControl.lean ====
section
/-! DEFINITION. Window 0, RAM access control (40_bus_writes.md R100, R101, R103). -/

namespace Sys2Proof.Machine

/-- WR_RAM_DISABLE (R100). -/
def execWrRamDisable (_off : BitVec 13) (s : State) : Result := .next (s.setRamEnable false)

/-- WR_RAM_ENABLE (R101): with no backing RAM a no-op (R205). -/
def execWrRamEnable (_off : BitVec 13) (s : State) : Result :=
  if s.config.ramPresent then .next ((s.setRamEnable true).emit (.switchRamBank s.ramBankSel)) else .next s

/-- WR_RAM_CTL_IGNORED (R103, R200). -/
def execWrRamCtlIgnored (_off : BitVec 13) (_d : Byte) (s : State) : Result := .next (s.emit (.diag .ctrlUnrecognized))

end Sys2Proof.Machine
end

