-- ==== Sys2Proof/Machine/UnroutedReads.lean ====
section
/-! DEFINITION. Reads outside window 5 (41_bus_reads.md R133): the host does not deliver them, and the spec gives them no
value ("n/a", "no-op"); they are refused by name, as R133 and 90_conflicts.md C6 say. -/

namespace Sys2Proof.Machine

/-- RD_UNROUTED_LO (R133): windows 0 to 3. -/
def execRdUnroutedLo (_a : BitVec 15) (s : State) : Result := refuse .readUnrouted s

/-- RD_UNROUTED_W4 (R133): window 4. -/
def execRdUnroutedW4 (_off : BitVec 13) (s : State) : Result := refuse .readUnrouted s

/-- RD_UNROUTED_HI (R133): windows 6 and 7. -/
def execRdUnroutedHi (_a : BitVec 14) (s : State) : Result := refuse .readUnrouted s

end Sys2Proof.Machine
end

