-- ==== Sys2Proof/Machine/Dispatch.lean ====
section
/-! DEFINITION. What each instruction does: one arm per constructor of Instr. A term is run as it is;
step runs only what decode gives (log 18). -/

namespace Sys2Proof.Machine

def exec (i : Instr) (s : State) : Host.Outcome State Fault Refusal :=
  match i with
  | .wrRamDisable off => Sys2Proof.Machine.execWrRamDisable off s
  | .wrRamEnable off => Sys2Proof.Machine.execWrRamEnable off s
  | .wrRamCtlIgnored off d => Sys2Proof.Machine.execWrRamCtlIgnored off d s
  | .wrRomBank off d => Sys2Proof.Machine.execWrRomBank off d s
  | .wrRamBank off bank => Sys2Proof.Machine.execWrRamBank off bank s
  | .wrRegMode off d => Sys2Proof.Machine.execWrRegMode off d s
  | .wrNopW3 off d => Sys2Proof.Machine.execWrNopW3 off d s
  | .wrNopW4 off d => Sys2Proof.Machine.execWrNopW4 off d s
  | .wrCamIgnored off d => Sys2Proof.Machine.execWrCamIgnored off d s
  | .wrCamTrigger ign d => Sys2Proof.Machine.execWrCamTrigger ign d s
  | .wrCamReg ign r d => Sys2Proof.Machine.execWrCamReg ign r d s
  | .wrNopW6 off d => Sys2Proof.Machine.execWrNopW6 off d s
  | .wrNopW7 off d => Sys2Proof.Machine.execWrNopW7 off d s
  | .rdCamRam off => Sys2Proof.Machine.execRdCamRam off s
  | .rdCamCtrl ign => Sys2Proof.Machine.execRdCamCtrl ign s
  | .rdCamZero ign r => Sys2Proof.Machine.execRdCamZero ign r s
  | .rdUnroutedLo a => Sys2Proof.Machine.execRdUnroutedLo a s
  | .rdUnroutedW4 off => Sys2Proof.Machine.execRdUnroutedW4 off s
  | .rdUnroutedHi a => Sys2Proof.Machine.execRdUnroutedHi a s

end Sys2Proof.Machine
end

