-- ==== Sys2Proof/Machine/HostMoves.lean ====
section
/-! DEFINITION. The host's own accesses (60_exceptions.md R214): its store into sram, and the store that follows a
window-5 write in RAM mode under HOST_RAM_WRITE = STORE (92_eei_decisions.md D25). -/

namespace Sys2Proof.Machine

/-- The host stores one byte of cartridge RAM (R64, R214); a byte that is not there is refused (R10; log 12). -/
def hostStore (off : Nat) (v : Byte) (s : State) : Result :=
  if s.hasRamByte off then .next (s.setSram (s.sram.write off v)) else refuse .ramRange s

/-- Under direct RAM mapping, HOST_RAM_WRITE = STORE and ramEnable = 1, with a RAM present, the host stores a window-5
write itself (D25; log 11). -/
def hostStoresWrites (s : State) : Bool :=
  decide (s.config.hostRamWrite = .store) && s.directRamMap && s.ramEnable && s.config.ramPresent

/-- What the host does after the block has run an instruction: only a WR_CAM_IGNORED has a sequel (R112, D25; log 11). -/
def hostFollowUp (i : Instr) (s : State) : Result :=
  match i with
  | .wrCamIgnored off d => if hostStoresWrites s then hostStore (ramModeOffset s off) d s else .next s
  | .wrRamDisable _ => .next s
  | .wrRamEnable _ => .next s
  | .wrRamCtlIgnored _ _ => .next s
  | .wrRomBank _ _ => .next s
  | .wrRamBank _ _ => .next s
  | .wrRegMode _ _ => .next s
  | .wrNopW3 _ _ => .next s
  | .wrNopW4 _ _ => .next s
  | .wrCamTrigger _ _ => .next s
  | .wrCamReg _ _ _ => .next s
  | .wrNopW6 _ _ => .next s
  | .wrNopW7 _ _ => .next s
  | .rdCamRam _ => .next s
  | .rdCamCtrl _ => .next s
  | .rdCamZero _ _ => .next s
  | .rdUnroutedLo _ => .next s
  | .rdUnroutedW4 _ => .next s
  | .rdUnroutedHi _ => .next s

/-- S.inputs without its head: the host move that this step takes (log 1). -/
def State.setInputs (s : State) (ms : List HostMove) : State := { s with inputs := ms }

/-- A bare transaction word stands for a reading in mode `ra`: put it in front of the queue and, for window 5, whose
words mean different things in the two modes (R71), select that mode as R104 and R105 do (log 2). -/
def placeWord (ra : Bool) (t : TWord) (s : State) : State :=
  let s := s.setInputs (.transaction t :: s.inputs)
  if fieldWin t = 5#3 then { s with registersActive := ra, directRamMap := !ra } else s

end Sys2Proof.Machine
end

