-- ==== Sys2Proof/Machine/Step.lean ====
section
/-! DEFINITION. One step: the host's next move, with a bus transaction decoded and run (00_scope.md R5; log 1). -/

namespace Sys2Proof.Machine

/-- One bus transaction: decode under the mode bit (R71), run, and let the host follow up (D25; log 11). -/
def runTransaction (t : TWord) (s : State) : Host.Outcome State Fault Refusal :=
  andThen (exec (decode s.registersActive t) s) (hostFollowUp (decode s.registersActive t))

/-- One host move (R214). -/
def runMove (m : HostMove) (s : State) : Host.Outcome State Fault Refusal :=
  match m with
  | .transaction t => runTransaction t s
  | .clearDirty => .next (s.setDirty false)
  | .storeRam off v => hostStore off v s

/-- One step: a configuration that breaks R208 is refused; with nothing delivered the block waits (log 1); else the
oldest move of the host is taken. -/
def step (s : State) : Host.Outcome State Fault Refusal :=
  if configAdmissible s.config = false then refuse .config s
  else
    match s.inputs with
    | [] => .next s
    | m :: rest => runMove m (s.setInputs rest)

/-- The state with the transaction word `w` delivered next, read in the mode `tableMode` (log 2). A number that is no
transaction word cannot be delivered: the state stays. -/
def State.withFetchWord (s : State) (nbits w : Nat) : State :=
  if w % 2 ^ nbits < 2 ^ 25 then placeWord tableMode (BitVec.ofNat 25 (w % 2 ^ nbits)) s else s

end Sys2Proof.Machine
end

