-- ==== Sys2Proof/Safety.lean ====
section
/-! DEFINITION. What claims are stated in: the machine invariant, the hypotheses of a capture, the closed form of the
output buffer (44_tile_packer.md R187), and the two whole-decode functions of the spec (R113, R134). -/

namespace Sys2Proof.Machine

/-- The invariant of the block: the configuration is one R208 admits; the register file is exactly N bytes (R20);
directRamMap = NOT registersActive (R31); bit 0 of CTRL reads 0 (R22); without RAM, ramEnable is 0 (R205); cartridge RAM
is in canonical form and inside 0 .. RAM_BYTES-1 (R52). -/
abbrev Inv (s : State) : Prop :=
  configAdmissible s.config = true ∧ s.regs.length = s.config.regCount ∧ s.directRamMap = !s.registersActive ∧
  (s.reg 0).getLsbD 0 = false ∧ (s.config.ramPresent = false → s.ramEnable = false) ∧ s.sram.wf = true ∧
  s.sram.within s.config.ramBytes = true

/-- An sram offset of the output buffer [0x100, 0xF00) (R53). -/
abbrev inBuffer (a : Nat) : Prop := 0x100 ≤ a ∧ a < 0xF00

/-- The image source answers with `f`, a frame of a supported format that covers W x H, and there is RAM to hold its
picture: a capture of it goes as far as the pixel loop (R140, R141). -/
abbrev frameReady (s : State) (f : Frame) : Prop :=
  s.requestedImage = some f ∧ s.config.ramPresent = true ∧ f.fmt ∈ s.config.formats ∧ covers f = true

/-- PLANE_p(c): bit 0 of the code for p = 0, bit 8 for p = 1 (R187, R168). -/
def planeBit (p : Nat) (c : Code) : Nat := (codePattern c).toNat >>> (8 * p) &&& 1

/-- The byte at offset t of the output buffer, from the codes of all pixels: the closed form of R187. -/
def closedFormByte (code : Nat → Nat → Code) (t : Nat) : Byte :=
  let n := t >>> 4
  let tx := n &&& 15
  let ty := n >>> 4
  let r := (t >>> 1) &&& 7
  let p := t &&& 1
  BitVec.ofNat 8 (((List.range 8).map fun b => planeBit p (code (8 * tx + 7 - b) (8 * ty + r)) <<< b).sum)

/-- The place of pixel (x, y) in the loop's order (R143). -/
def pixelRank (x y : Nat) : Nat := frameWidth * y + x

/-- write(a, D) as one function, transcribed from R113; CAPTURE is the model's. -/
def busWrite (a : Word16) (d : Byte) (s : State) : Result :=
  match a.toNat >>> 13 with
  | 0 =>
    if d = 0x00#8 then .next { s with ramEnable := false }
    else if d = 0x0A#8 then
      if s.config.ramPresent = true then
        .next { s with ramEnable := true, hist := s.hist ++ [.switchRamBank s.ramBankSel] }
      else .next s
    else .next { s with hist := s.hist ++ [.diag .ctrlUnrecognized] }
  | 1 => .next { s with hist := s.hist ++ [.switchRomBank ((d &&& 0x3F#8).setWidth 6)] }
  | 2 =>
    if d.toNat < 0x10 then
      .next { s with
        ramBankSel := d.setWidth 4, hist := s.hist ++ [.switchRamBank (d.setWidth 4)],
        registersActive := false, directRamMap := true }
    else .next { s with registersActive := true, directRamMap := false }
  | 5 =>
    if s.registersActive = false then .next s
    else
      let r := (a &&& 0x7F#16).toNat
      let store := fun (v : Byte) (s' : State) =>
        if r < s'.config.regCount then { s' with regs := s'.regs.set r v } else s'
      if r = 0 ∧ d.getLsbD 0 = true then
        match capture { s with dirty := true } with
        | .next s' => .next (store (d &&& 0x06#8) s')
        | .fault f => .fault f
        | .refused q => .refused q
      else .next (store d s)
  | _ => .next { s with hist := s.hist ++ [.diag .unmapped] }

/-- read(a) as one function, transcribed from R134: the value goes to `readResult`. -/
def busRead (a : Word16) (s : State) : Result :=
  if a.toNat >>> 13 ≠ 5 then .refused (.readUnrouted { s with refused := true })
  else if s.registersActive = true then
    .next { s with readResult := some (if a &&& 0x7F#16 = 0#16 then s.regs.getD 0 0#8 else 0x00#8) }
  else if s.config.ramPresent = false ∨ s.ramEnable = false then
    .next { s with readResult := some (Config.disabledRead s.draws), draws := s.draws + 1 }
  else
    let off := s.config.ramBankBase[s.ramBankSel.toNat] + (a &&& 0x1FFF#16).toNat
    if off ≥ s.config.ramBytes then .refused (.ramRange { s with refused := true })
    else .next { s with readResult := some (s.sram.read off) }

/-- Two sessions that differ at most in N, the size of the register file, and in the margin it adds (R24). -/
def sameButN (s s' : State) : Prop :=
  54 ≤ s.config.regCount ∧ s.config.regCount ≤ 128 ∧ s.regs.length = s.config.regCount ∧
  54 ≤ s'.config.regCount ∧ s'.config.regCount ≤ 128 ∧ s'.regs.length = s'.config.regCount ∧
  (∀ i, i < 54 → s'.reg i = s.reg i) ∧
  s' = { s with config := { s.config with regCount := s'.config.regCount }, regs := s'.regs }

/-- Two outcomes of a step that agree but for N: the same kind of end, for the same reason, in states that agree. -/
def sameOutcomeButN : Result → Result → Prop
  | .next t, .next t' => sameButN t t'
  | .fault (.rawLumaUndefined x y l t), .fault (.rawLumaUndefined x' y' l' t') => x' = x ∧ y' = y ∧ l' = l ∧ sameButN t t'
  | .refused (.config t), .refused (.config t') => sameButN t t'
  | .refused (.readUnrouted t), .refused (.readUnrouted t') => sameButN t t'
  | .refused (.shortFrame t), .refused (.shortFrame t') => sameButN t t'
  | .refused (.noRam t), .refused (.noRam t') => sameButN t t'
  | .refused (.ramRange t), .refused (.ramRange t') => sameButN t t'
  | _, _ => False

/-- The refusal with another register file in the state it leaves; the one that leaves no state stays. -/
def Refusal.withRegs (regs' : List Byte) : Refusal → Refusal
  | .config t => .config { t with regs := regs' }
  | .readUnrouted t => .readUnrouted { t with regs := regs' }
  | .shortFrame t => .shortFrame { t with regs := regs' }
  | .noRam t => .noRam { t with regs := regs' }
  | .ramRange t => .ramRange { t with regs := regs' }
  | q => q

/-- The same outcome with another register file in the state it ends in (R27). -/
def outcomeWithRegs (regs' : List Byte) : Result → Result
  | .next t => .next { t with regs := regs' }
  | .fault (.rawLumaUndefined x y l t) => .fault (.rawLumaUndefined x y l { t with regs := regs' })
  | .refused q => .refused (q.withRegs regs')

/-- Which bus access the machine takes next, if it takes one. -/
def State.nextWord (s : State) : Option TWord :=
  match s.inputs with
  | .transaction t :: _ => some t
  | .clearDirty :: _ => none
  | .storeRam _ _ :: _ => none
  | [] => none

/-- A bus write to window n. -/
abbrev isWriteTo (n : BitVec 3) (w : TWord) : Prop := fieldRw w = true ∧ fieldWin w = n

/-- A trigger write in register-active mode: window 5, masked address 0, bit 0 of the value set (R110). -/
abbrev isTrigger (ra : Bool) (w : TWord) : Prop :=
  ra = true ∧ isWriteTo 5#3 w ∧ fieldM7 w = 0#7 ∧ (fieldD w).getLsbD 0 = true

end Sys2Proof.Machine

namespace Sys2Proof

/-- The bus reads among the instructions. -/
def Instr.isRead : Instr → Bool
  | .rdCamRam _ => true
  | .rdCamCtrl _ => true
  | .rdCamZero _ _ => true
  | .rdUnroutedLo _ => true
  | .rdUnroutedW4 _ => true
  | .rdUnroutedHi _ => true
  | .wrRamDisable _ => false
  | .wrRamEnable _ => false
  | .wrRamCtlIgnored _ _ => false
  | .wrRomBank _ _ => false
  | .wrRamBank _ _ => false
  | .wrRegMode _ _ => false
  | .wrNopW3 _ _ => false
  | .wrNopW4 _ _ => false
  | .wrCamIgnored _ _ => false
  | .wrCamTrigger _ _ => false
  | .wrCamReg _ _ _ => false
  | .wrNopW6 _ _ => false
  | .wrNopW7 _ _ => false

end Sys2Proof
end

