-- ==== Sys2Proof/Certificates/Slice0/Obligations.lean ====
section
/-! DEFINITION. The statements for the provers. Each docstring names the rule of spec/ it formalises; a clause that rests
on a choice of the model or on a decision or derivation the spec marks as its own says so. -/

open Sys2Proof Sys2Proof.Machine

/-! ### Encoding -/

/-- Decoding the word of a well-formed transaction, in a mode its row allows, gives the transaction back: no bit of a
word is dropped (30_encoding.md R70, R74; the word form is the spec's decision D24). -/
def Obligations.DecodeOfEncode : Prop :=
  ∀ (i : Instr) (ra : Bool), i.wellFormed = true → i.allowedIn ra = true → decode ra (encode i) = i

/-- Encoding what a word decodes to gives the word back, but for a read's D, which a decoder ignores (R70). -/
def Obligations.EncodeOfDecode : Prop :=
  ∀ (ra : Bool) (t : TWord),
    encode (decode ra t) = busWord (fieldRw t) (fieldA t) (if fieldRw t = true then fieldD t else 0x00#8)

/-- Every word decodes, in either mode, to a well-formed transaction of that mode (R74, R76: no word is illegal). -/
def Obligations.DecodedIsWellFormed : Prop :=
  ∀ (ra : Bool) (t : TWord), (decode ra t).wellFormed = true ∧ (decode ra t).allowedIn ra = true

/-- The decoder takes the first row of the table, in priority order, whose mask and match fit the word and whose state
condition holds (R74); for every word there is one (the spec's own derivation). The word form and rows 17 to 19 are its
decisions D24 and D8. -/
def Obligations.DecodeTakesFirstRow : Prop :=
  ∀ (ra : Bool) (t : TWord), (firstFit ra t).map OpcodeRow.prio = some (decode ra t).row

/-- The mode bit changes the meaning of every window-5 word, and of no other word (R71). -/
def Obligations.ModeMattersInWindow5Only : Prop :=
  ∀ t : TWord, (fieldWin t = 5#3 → decode true t ≠ decode false t) ∧
    (fieldWin t ≠ 5#3 → decode true t = decode false t)

/-- Words written out from the encoding decode to the transactions they stand for (95_test_vectors.md 2.1). -/
def Obligations.SampleWordsDecode : Prop :=
  decode false 0x1123400#25 = .wrRamDisable 0x1234#13 ∧
  decode true 0x100000A#25 = .wrRamEnable 0#13 ∧
  decode false 0x1200045#25 = .wrRomBank 0#13 0x45#8 ∧
  decode false 0x140000F#25 = .wrRamBank 0#13 15#4 ∧
  decode false 0x15FFFFF#25 = .wrRegMode 0x1FFF#13 0xFF#8 ∧
  decode true 0x1BF80FF#25 = .wrCamTrigger 63#6 0xFF#8 ∧
  decode true 0x1A00101#25 = .wrCamReg 0#6 1#7 0x01#8 ∧
  decode false 0x0A12300#25 = .rdCamRam 0x123#13 ∧
  decode true 0x0B08000#25 = .rdCamCtrl 33#6 ∧
  decode true 0x0FFFF00#25 = .rdUnroutedHi 0x3FFF#14

/-- Each pseudo-transaction expands to the word of the transaction R79 gives it (the spec's decision D24). -/
def Obligations.PseudoTransactionsExpand : Prop :=
  (∀ ra, decode ra Pseudo.ramOff.expand = .wrRamDisable 0#13) ∧
  (∀ ra, decode ra Pseudo.ramOn.expand = .wrRamEnable 0#13) ∧
  (∀ ra n, decode ra (Pseudo.romb n).expand = .wrRomBank 0#13 n) ∧
  (∀ ra n, decode ra (Pseudo.ramb n).expand = .wrRamBank 0#13 n) ∧
  (∀ ra, decode ra Pseudo.regs.expand = .wrRegMode 0#13 0x10#8) ∧
  (∀ r v, (Pseudo.setReg r v).wellFormed = true → decode true (Pseudo.setReg r v).expand = .wrCamReg 0#6 r v) ∧
  (∀ b, decode true (Pseudo.shoot b).expand = .wrCamTrigger 0#6 (b ||| 0x01#8)) ∧
  decode true Pseudo.getCtrl.expand = .rdCamCtrl 0#6 ∧
  (∀ o, decode false (Pseudo.ramRd o).expand = .rdCamRam o)

/-- In register-active mode a window-5 address reaches a register by its low 7 bits alone: two addresses of window 5 that
agree in them act alike, for a write of any value and for a read (20_memory.md R51, R234; reads by decision D9). -/
def Obligations.AliasesActAlike : Prop :=
  ∀ (s : State) (a b : Word16) (d : Byte), a.toNat / 0x2000 = 5 → b.toNat / 0x2000 = 5 → a.toNat % 0x80 = b.toNat % 0x80 →
    exec (decode true (busWord true a d)) s = exec (decode true (busWord true b d)) s ∧
    exec (decode true (busWord false a 0x00#8)) s = exec (decode true (busWord false b 0x00#8)) s

/-! ### The step -/

/-- A transaction that the host delivers is decoded under the mode bit and run, with the host's own store following a
window-5 write in RAM mode (log 11); the step takes it off the queue (logs 1, 3). -/
def Obligations.StepRunsDecodedInstruction : Prop :=
  ∀ (s : State) (t : TWord) (rest : List HostMove), configAdmissible s.config = true →
    s.inputs = .transaction t :: rest →
    step s = andThen (exec (decode s.registersActive t) { s with inputs := rest }) (hostFollowUp (decode s.registersActive t))

/-- A table word placed where the step takes its next transaction is exactly the instruction that `decodeTableWord`
reads, run next; for window 5 the placing selects register-active mode (log 2, the model's choice). -/
def Obligations.PlacedWordRunsNext : Prop :=
  ∀ (s : State) (nbits w : Nat) (i : Instr), configAdmissible s.config = true → decodeTableWord nbits w = some i →
    step (s.withFetchWord nbits w) =
      andThen (exec i (if fieldWin (BitVec.ofNat 25 (w % 2 ^ nbits)) = 5#3 then
        { s with registersActive := true, directRamMap := false } else s)) (hostFollowUp i)

/-- With nothing delivered the block waits; the host may clear dirty, and may store a byte of sram that exists
(60_exceptions.md R214, R32; logs 1 and 12, the model's choices). -/
def Obligations.HostMovesBetweenTransactions : Prop :=
  (∀ s : State, configAdmissible s.config = true → s.inputs = [] → step s = .next s) ∧
  (∀ (s : State) (rest : List HostMove), configAdmissible s.config = true → s.inputs = .clearDirty :: rest →
    step s = .next { s with inputs := rest, dirty := false }) ∧
  (∀ (s : State) (off : Nat) (v : Byte) (rest : List HostMove), configAdmissible s.config = true → s.sram.wf = true →
    s.inputs = .storeRam off v :: rest → s.config.ramPresent = true → off < s.config.ramBytes →
    ∃ m : Memory, step s = .next { s with inputs := rest, sram := m } ∧ m.wf = true ∧ m.read off = v ∧
      ∀ a, a ≠ off → m.read a = s.sram.read a) ∧
  (∀ (s : State) (off : Nat) (v : Byte) (rest : List HostMove), configAdmissible s.config = true →
    s.inputs = .storeRam off v :: rest → (s.config.ramPresent = false ∨ s.config.ramBytes ≤ off) →
    step s = .refused (.ramRange { s with inputs := rest, refused := true }))

/-- A configuration is refused as a whole exactly where a condition of R208 fails (decisions D2, D3, D6, D17); the
conditions on LUMA(L8, p) and on the two choices hold of every configuration of the model. That the refusal is made at
every step, with nothing delivered too, is the model's own choice (log 14). -/
def Obligations.BadConfigurationRefused : Prop :=
  (∀ p : Byte, luma .l8 p = p) ∧
  ∀ s : State,
    (¬ (54 ≤ s.config.regCount ∧ s.config.regCount ≤ 128 ∧ s.config.width = 128 ∧ s.config.height = 112 ∧
        0xF00 ≤ s.config.ramBytes ∧ Format.l8 ∈ s.config.formats) ↔
      step s = .refused (.config { s with refused := true }))

/-- What follows a transaction outside the block (R112, decision D25; log 11): only a window-5 write in RAM mode has a
sequel, and only under HOST_RAM_WRITE = STORE with direct mapping, RAM access enabled and a RAM present; then the host
stores D at RAM_BANK_BASE(ramBankSel) + a[12:0]. -/
def Obligations.HostRamWriteFollowsIgnoredWrite : Prop :=
  (∀ (i : Instr) (s : State), (∀ off d, i ≠ .wrCamIgnored off d) → hostFollowUp i s = .next s) ∧
  (∀ (s : State) (off : BitVec 13) (d : Byte),
    ¬ (s.config.hostRamWrite = .store ∧ s.directRamMap = true ∧ s.ramEnable = true ∧ s.config.ramPresent = true) →
    hostFollowUp (.wrCamIgnored off d) s = .next s) ∧
  (∀ (s : State) (off : BitVec 13) (d : Byte), s.config.hostRamWrite = .store → s.directRamMap = true →
    s.ramEnable = true → s.config.ramPresent = true → s.sram.wf = true →
    s.config.ramBankBase[s.ramBankSel.toNat] + off.toNat < s.config.ramBytes →
    ∃ m : Memory, hostFollowUp (.wrCamIgnored off d) s = .next { s with sram := m } ∧ m.wf = true ∧
      m.read (s.config.ramBankBase[s.ramBankSel.toNat] + off.toNat) = d ∧
      ∀ a, a ≠ s.config.ramBankBase[s.ramBankSel.toNat] + off.toNat → m.read a = s.sram.read a) ∧
  (∀ (s : State) (off : BitVec 13) (d : Byte), s.config.hostRamWrite = .store → s.directRamMap = true →
    s.ramEnable = true → s.config.ramPresent = true →
    s.config.ramBytes ≤ s.config.ramBankBase[s.ramBankSel.toNat] + off.toNat →
    hostFollowUp (.wrCamIgnored off d) s = .refused (.ramRange { s with refused := true }))

/-! ### Bus writes: each rule's effect, and its row of the decode table -/

/-- WR_RAM_DISABLE (R100): ramEnable <- 0 and nothing else; its row; with no RAM it changes nothing. -/
def Obligations.RamDisableClearsEnable : Prop :=
  (∀ (off : BitVec 13) (s : State), exec (.wrRamDisable off) s = .next { s with ramEnable := false }) ∧
  (∀ (ra : Bool) (t : TWord), t &&& 0x1E000FF#25 = 0x1000000#25 ↔ decode ra t = .wrRamDisable (fieldOff t)) ∧
  (∀ (off : BitVec 13) (s : State), Inv s → s.config.ramPresent = false → exec (.wrRamDisable off) s = .next s)

/-- WR_RAM_ENABLE (R101, R205): ramEnable <- 1 and the re-selection of the current bank; with no RAM a no-op (the
spec's decision D21); its row. -/
def Obligations.RamEnableReselectsBank : Prop :=
  (∀ (off : BitVec 13) (s : State), s.config.ramPresent = true → exec (.wrRamEnable off) s =
    .next { s with ramEnable := true, hist := s.hist ++ [.switchRamBank s.ramBankSel] }) ∧
  (∀ (off : BitVec 13) (s : State), s.config.ramPresent = false → exec (.wrRamEnable off) s = .next s) ∧
  (∀ (ra : Bool) (t : TWord), t &&& 0x1E000FF#25 = 0x100000A#25 ↔ decode ra t = .wrRamEnable (fieldOff t))

/-- WR_RAM_CTL_IGNORED (R103): only the diagnostic DIAG_CTRL_UNRECOGNIZED; its row, after rows 1 and 2. -/
def Obligations.UnrecognizedControlValueReported : Prop :=
  (∀ (off : BitVec 13) (d : Byte) (s : State), exec (.wrRamCtlIgnored off d) s =
    .next { s with hist := s.hist ++ [.diag .ctrlUnrecognized] }) ∧
  (∀ (ra : Bool) (t : TWord), (t &&& 0x1E00000#25 = 0x1000000#25 ∧ fieldD t ≠ 0x00#8 ∧ fieldD t ≠ 0x0A#8) ↔
    decode ra t = .wrRamCtlIgnored (fieldOff t) (fieldD t))

/-- WR_ROM_BANK (R102): only the event SwitchRomBank(D & 0x3F); its row. -/
def Obligations.RomBankSelected : Prop :=
  (∀ (off : BitVec 13) (d : Byte) (s : State), ∃ n : BitVec 6, n.toNat = (d &&& 0x3F#8).toNat ∧
    exec (.wrRomBank off d) s = .next { s with hist := s.hist ++ [.switchRomBank n] }) ∧
  (∀ (ra : Bool) (t : TWord), t &&& 0x1E00000#25 = 0x1200000#25 ↔ decode ra t = .wrRomBank (fieldOff t) (fieldD t))

/-- WR_RAM_BANK (R104): the bank, its event, RAM mode and direct mapping; its row, with the bank D. -/
def Obligations.RamBankSelected : Prop :=
  (∀ (off : BitVec 13) (bank : BitVec 4) (s : State), exec (.wrRamBank off bank) s =
    .next { s with ramBankSel := bank, registersActive := false, directRamMap := true,
                   hist := s.hist ++ [.switchRamBank bank] }) ∧
  (∀ (ra : Bool) (t : TWord), t &&& 0x1E000F0#25 = 0x1400000#25 ↔
    decode ra t = .wrRamBank (fieldOff t) (BitVec.ofNat 4 (fieldD t).toNat)) ∧
  (∀ t : TWord, t &&& 0x1E000F0#25 = 0x1400000#25 → (fieldD t).toNat < 0x10)

/-- WR_REG_MODE (R105): register-active mode, direct mapping off, no bank taken from D; its row, after row 5. -/
def Obligations.RegisterModeEntered : Prop :=
  (∀ (off : BitVec 13) (d : Byte) (s : State), exec (.wrRegMode off d) s =
    .next { s with registersActive := true, directRamMap := false }) ∧
  (∀ (ra : Bool) (t : TWord), (t &&& 0x1E00000#25 = 0x1400000#25 ∧ 0x10 ≤ (fieldD t).toNat) ↔
    decode ra t = .wrRegMode (fieldOff t) (fieldD t))

/-- WR_NOP_W3, W4, W6, W7 (R106 to R109): only the diagnostic DIAG_UNMAPPED; their rows. -/
def Obligations.UnmappedWritesReported : Prop :=
  (∀ (off : BitVec 13) (d : Byte) (s : State),
    exec (.wrNopW3 off d) s = .next { s with hist := s.hist ++ [.diag .unmapped] } ∧
    exec (.wrNopW4 off d) s = .next { s with hist := s.hist ++ [.diag .unmapped] } ∧
    exec (.wrNopW6 off d) s = .next { s with hist := s.hist ++ [.diag .unmapped] } ∧
    exec (.wrNopW7 off d) s = .next { s with hist := s.hist ++ [.diag .unmapped] }) ∧
  (∀ (ra : Bool) (t : TWord),
    (t &&& 0x1E00000#25 = 0x1600000#25 ↔ decode ra t = .wrNopW3 (fieldOff t) (fieldD t)) ∧
    (t &&& 0x1E00000#25 = 0x1800000#25 ↔ decode ra t = .wrNopW4 (fieldOff t) (fieldD t)) ∧
    (t &&& 0x1E00000#25 = 0x1C00000#25 ↔ decode ra t = .wrNopW6 (fieldOff t) (fieldD t)) ∧
    (t &&& 0x1E00000#25 = 0x1E00000#25 ↔ decode ra t = .wrNopW7 (fieldOff t) (fieldD t)))

/-- WR_CAM_IGNORED (R112): in RAM mode the block does nothing with a window-5 write; its row. The host's own store is
stated by HostRamWriteFollowsIgnoredWrite. -/
def Obligations.RamModeCameraWriteIgnored : Prop :=
  (∀ (off : BitVec 13) (d : Byte) (s : State), exec (.wrCamIgnored off d) s = .next s) ∧
  (∀ (ra : Bool) (t : TWord), (t &&& 0x1E00000#25 = 0x1A00000#25 ∧ ra = false) ↔
    decode ra t = .wrCamIgnored (fieldOff t) (fieldD t))

/-- WR_CAM_REG (R111): the whole byte is stored in the register of the masked address where there is one, and nothing
happens where there is none; its row, after row 10. -/
def Obligations.RegisterWriteStoresOrDrops : Prop :=
  (∀ (ign : BitVec 6) (r : BitVec 7) (d : Byte) (s : State), s.regs.length = s.config.regCount →
    (r.toNat < s.config.regCount → ∃ regs', exec (.wrCamReg ign r d) s = .next { s with regs := regs' } ∧
      regs'.length = s.config.regCount ∧ ∀ i, regs'.getD i 0x00#8 = if i = r.toNat then d else s.reg i) ∧
    (s.config.regCount ≤ r.toNat → exec (.wrCamReg ign r d) s = .next s)) ∧
  (∀ (ra : Bool) (t : TWord), (t &&& 0x1E00000#25 = 0x1A00000#25 ∧ ra = true ∧
      ¬ (fieldM7 t = 0#7 ∧ (fieldD t).getLsbD 0 = true)) ↔
    decode ra t = .wrCamReg (fieldIgn t) (fieldM7 t) (fieldD t))

/-! ### The trigger write and the capture -/

/-- WR_CAM_TRIGGER (R110), where it ends in a next state: dirty is set, CTRL holds D & 0x06 so that its bit 0 is 0, every
other register, the mode and control bits, the configuration and every byte outside the output buffer are unchanged; its
row. -/
def Obligations.TriggerWriteFrame : Prop :=
  (∀ (ign : BitVec 6) (d : Byte) (s t : State), s.sram.wf = true → s.regs.length = s.config.regCount →
    54 ≤ s.config.regCount → exec (.wrCamTrigger ign d) s = .next t →
    t.dirty = true ∧ t.reg 0 = d &&& 0x06#8 ∧ (t.reg 0).getLsbD 0 = false ∧ (∀ i, i ≠ 0 → t.reg i = s.reg i) ∧
    t.regs.length = s.regs.length ∧ (∀ a, ¬ inBuffer a → t.sram.read a = s.sram.read a) ∧
    t = { s with dirty := true, regs := t.regs, sram := t.sram, hist := t.hist, images := s.images.tail }) ∧
  (∀ (ra : Bool) (t : TWord), (t &&& 0x1E07F01#25 = 0x1A00001#25 ∧ ra = true) ↔
    decode ra t = .wrCamTrigger (fieldIgn t) (fieldD t))

/-- No frame (R145): CAPTURE returns at once; nothing is zeroed, packed or emitted, and the trigger write's own effects
still happen. -/
def Obligations.TriggerWithoutFrame : Prop :=
  ∀ (ign : BitVec 6) (d : Byte) (s : State), s.requestedImage = none →
    exec (.wrCamTrigger ign d) s =
      .next { s with dirty := true, regs := s.regs.set 0 (d &&& 0x06#8), images := s.images.tail }

/-- An unsupported format (R146): the diagnostic, an all-zero output buffer, every other byte as before, and the trigger
write still stores regs[0]. -/
def Obligations.TriggerWithUnsupportedFormat : Prop :=
  ∀ (ign : BitVec 6) (d : Byte) (s : State) (f : Frame), Inv s → s.requestedImage = some f → s.config.ramPresent = true →
    f.fmt ∉ s.config.formats →
    ∃ m : Memory, exec (.wrCamTrigger ign d) s =
        .next { s with dirty := true, regs := s.regs.set 0 (d &&& 0x06#8), images := s.images.tail, sram := m,
                       hist := s.hist ++ [.diag .unsupportedFormat] } ∧
      m.wf = true ∧ ∀ a, m.read a = if 0x100 ≤ a ∧ a < 0xF00 then 0x00#8 else s.sram.read a

/-- A weighted capture (R140, R150) of a frame that covers W x H completes: every byte of the output buffer is the closed
form of R187 on the weighted codes of the pixels, whatever it held before; every byte outside it is unchanged. R150 and
R187 are the spec's own derivations, and frame addressing and exact arithmetic its decisions D18, D19. -/
def Obligations.WeightedCaptureCompletes : Prop :=
  ∀ (ign : BitVec 6) (d : Byte) (s : State) (f : Frame), Inv s → s.config.captureMode = .weighted → frameReady s f →
    ∃ m : Memory, exec (.wrCamTrigger ign d) s =
        .next { s with dirty := true, regs := s.regs.set 0 (d &&& 0x06#8), images := s.images.tail, sram := m } ∧
      m.wf = true ∧ (∀ a, ¬ inBuffer a → m.read a = s.sram.read a) ∧
      ∀ t, t < 0xE00 → m.read (0x100 + t) = closedFormByte (fun x y => weightedCode s f x y) t

/-- A raw capture (R148, R150) of a frame whose every pixel has a raw code completes, with the closed form of R187 on
those codes (R150, R187 derived by the spec; the raw path's choice and codes by its decisions D12 to D15). -/
def Obligations.RawCaptureCompletes : Prop :=
  ∀ (ign : BitVec 6) (d : Byte) (s : State) (f : Frame) (code : Nat → Nat → Code), Inv s → s.config.captureMode = .raw →
    frameReady s f →
    (∀ x y, x < 128 → y < 112 → rawMap s.config.rawUndefPolicy (pixelLuma f x y) = some (code x y)) →
    ∃ m : Memory, exec (.wrCamTrigger ign d) s =
        .next { s with dirty := true, regs := s.regs.set 0 (d &&& 0x06#8), images := s.images.tail, sram := m } ∧
      m.wf = true ∧ (∀ a, ¬ inBuffer a → m.read a = s.sram.read a) ∧
      ∀ t, t < 0xE00 → m.read (0x100 + t) = closedFormByte code t

/-- A raw capture under RAW_UNDEF_POLICY = FAULT (R149, R206; decision D14) ends in the fault at the first pixel, in loop
order (decision D16), whose luminance is outside {0, 85, 170, 255}: the pixels before it are packed, the rest of the
buffer is zero, FAULTED and dirty are set, and regs[0] is not stored. -/
def Obligations.RawFaultAtFirstUndefinedPixel : Prop :=
  ∀ (ign : BitVec 6) (d : Byte) (s : State) (f : Frame) (code : Nat → Nat → Code) (x0 y0 : Nat), Inv s →
    s.config.captureMode = .raw → s.config.rawUndefPolicy = .fault → frameReady s f → x0 < 128 → y0 < 112 →
    pixelLuma f x0 y0 ≠ 0#8 → pixelLuma f x0 y0 ≠ 85#8 → pixelLuma f x0 y0 ≠ 170#8 → pixelLuma f x0 y0 ≠ 255#8 →
    (∀ x y, x < 128 → y < 112 → pixelRank x y < pixelRank x0 y0 → rawLevelCode (pixelLuma f x y) = some (code x y)) →
    ∃ m : Memory, exec (.wrCamTrigger ign d) s =
        .fault (.rawLumaUndefined x0 y0 (pixelLuma f x0 y0)
          { s with dirty := true, images := s.images.tail, sram := m, faulted := true }) ∧
      m.wf = true ∧ (∀ a, ¬ inBuffer a → m.read a = s.sram.read a) ∧
      ∀ t, t < 0xE00 → m.read (0x100 + t) =
        closedFormByte (fun x y => if pixelRank x y < pixelRank x0 y0 then code x y else .c000) t

/-- A trigger write that the model refuses (R207, R210 steps 5 and 8; decisions D18, D21): with no RAM and a frame,
nothing but dirty is done; with a frame too short for W x H, the buffer has been zeroed. regs[0] is stored in neither. -/
def Obligations.CaptureRefusals : Prop :=
  (∀ (ign : BitVec 6) (d : Byte) (s : State) (f : Frame), s.requestedImage = some f → s.config.ramPresent = false →
    exec (.wrCamTrigger ign d) s =
      .refused (.noRam { s with dirty := true, images := s.images.tail, refused := true })) ∧
  (∀ (ign : BitVec 6) (d : Byte) (s : State) (f : Frame), Inv s → s.requestedImage = some f →
    s.config.ramPresent = true → f.fmt ∈ s.config.formats →
    (f.stride < 128 ∨ f.data.length < 111 * f.stride + 128) →
    ∃ m : Memory, exec (.wrCamTrigger ign d) s =
        .refused (.shortFrame { s with dirty := true, images := s.images.tail, sram := m, refused := true }) ∧
      m.wf = true ∧ ∀ a, m.read a = if 0x100 ≤ a ∧ a < 0xF00 then 0x00#8 else s.sram.read a)

/-- Two captures that see the same frame under the same configuration and the same registers from EXPOSURE_HI on leave
the same output buffer, whatever it held before (R61, R150: "two consecutive identical captures produce identical
output"). -/
def Obligations.IdenticalCapturesIdenticalOutput : Prop :=
  ∀ (ign ign' : BitVec 6) (d d' : Byte) (s s' t t' : State) (f : Frame), Inv s → Inv s' → s.config = s'.config →
    (∀ i, 2 ≤ i → s.reg i = s'.reg i) → s.requestedImage = some f → s'.requestedImage = some f →
    exec (.wrCamTrigger ign d) s = .next t → exec (.wrCamTrigger ign' d') s' = .next t' →
    ∀ a, inBuffer a → t.sram.read a = t'.sram.read a

/-! ### The packer and the quantizer -/

/-- The final buffer does not depend on the order in which the pixels are packed (R186, derived by the spec; R143). -/
def Obligations.PackingOrderIrrelevant : Prop :=
  ∀ (code : Nat → Nat → Code) (ps : List (Nat × Nat)) (m : Memory), m.wf = true → ps.Perm pixelOrder →
    packPixels (fun x y => .ok (code x y)) ps m = packPixels (fun x y => .ok (code x y)) pixelOrder m

/-- Pixels and output bits correspond one to one (R186, derived by the spec): distinct pixels have distinct (word, shift), every word of the
buffer and every shift is some pixel's, and tileOffset has the tile form of R181. -/
def Obligations.PixelsOwnDistinctBits : Prop :=
  (∀ x y x' y' : Nat, x < 128 → y < 112 → x' < 128 → y' < 112 → pixelAddr x y = pixelAddr x' y' →
    pixelShift x = pixelShift x' → x = x' ∧ y = y') ∧
  (∀ o k : Nat, 0x100 ≤ o → o ≤ 0xEFE → o % 2 = 0 → k < 8 →
    ∃ x y, x < 128 ∧ y < 112 ∧ pixelAddr x y = o ∧ pixelShift x = k) ∧
  (∀ x y : Nat, x < 128 → y < 112 → tileOffset x y = 256 * (y / 8) + 16 * (x / 8) + 2 * (y % 8))

/-- PACK (R183): the 16-bit little-endian word at 0x100 + tileOffset(x, y) is OR-ed with the code shifted by
7 - (x mod 8), and no other byte changes. -/
def Obligations.PackOrsOneWord : Prop :=
  ∀ (x y : Nat) (c : Code) (m : Memory), m.wf = true →
    (pack x y c m).wf = true ∧
    (pack x y c m).read16 (0x100 + tileOffset x y) =
      m.read16 (0x100 + tileOffset x y) ||| codePattern c <<< (7 - x % 8) ∧
    ∀ a, a ≠ 0x100 + tileOffset x y → a ≠ 0x100 + tileOffset x y + 1 → (pack x y c m).read a = m.read a

/-- QUANT (R165): which adjusted values give which code, for every triple. -/
def Obligations.QuantizerCascade : Prop :=
  ∀ (adj : Nat) (d m l : Byte),
    (quant adj d m l = .c101 ↔ adj < d.toNat) ∧
    (quant adj d m l = .c100 ↔ d.toNat ≤ adj ∧ adj < m.toNat) ∧
    (quant adj d m l = .c001 ↔ d.toNat ≤ adj ∧ m.toNat ≤ adj ∧ adj < l.toNat) ∧
    (quant adj d m l = .c000 ↔ d.toNat ≤ adj ∧ m.toNat ≤ adj ∧ l.toNat ≤ adj) ∧
    codePattern .c101 = 0x101#16 ∧ codePattern .c100 = 0x100#16 ∧ codePattern .c001 = 0x001#16 ∧
    codePattern .c000 = 0x000#16

/-- Quantization is monotone for an ascending triple (R166, derived by the spec): a larger adjusted value never gives a darker code, the codes
being ordered 0x101, 0x100, 0x001, 0x000. -/
def Obligations.QuantizerMonotone : Prop :=
  ∀ (adj adj' : Nat) (d m l : Byte), d.toNat ≤ m.toNat → m.toNat ≤ l.toNat → adj ≤ adj' →
    (codePattern (quant adj' d m l)).toNat ≤ (codePattern (quant adj d m l)).toNat

/-- The weighted code of a pixel, in the spec's own numbers (R140, R162 to R165): the luminance plus one, times the
exposure regs[2] * 256 + regs[3], divided by 256, against the triple of cell (x mod 4) + 4 * (y mod 4). -/
def Obligations.WeightedCodeFormula : Prop :=
  ∀ (s : State) (f : Frame) (x y : Nat),
    weightedCode s f x y =
      quant (((pixelLuma f x y).toNat + 1) * ((s.reg 2).toNat * 256 + (s.reg 3).toNat) / 256)
        (s.reg (3 * (x % 4 + 4 * (y % 4)) + 6)) (s.reg (3 * (x % 4 + 4 * (y % 4)) + 7))
        (s.reg (3 * (x % 4 + 4 * (y % 4)) + 8)) ∧
    3 * (x % 4 + 4 * (y % 4)) + 8 ≤ 53

/-- EXPOSE (R162; arithmetic by decision D19): floor division of the exact product, within 24 and 16 bits, with the
rule's corner cases. -/
def Obligations.ExposureArithmetic : Prop :=
  ∀ (l : Byte) (e : Word16),
    expose l e = (l.toNat + 1) * e.toNat / 256 ∧ (l.toNat + 1) * e.toNat ≤ 16776960 ∧ expose l e ≤ 65535 ∧
    expose l 0#16 = 0 ∧ expose l 256#16 = l.toNat + 1 ∧ expose l 1#16 = (if l = 255#8 then 1 else 0) ∧
    expose 0#8 255#16 = 0 ∧ expose 255#8 65535#16 = 65535

/-- RAWMAP (R167; the codes of 0, 170 and 255 and the policies are the spec's decisions D13, D14): under FAULT a code for
the four levels only; under NEAREST always the code of a level no other level is nearer to. -/
def Obligations.RawMapping : Prop :=
  (∀ p, rawMap p 0#8 = some .c101 ∧ rawMap p 85#8 = some .c100 ∧ rawMap p 170#8 = some .c001 ∧
    rawMap p 255#8 = some .c000) ∧
  (∀ l : Byte, l ≠ 0#8 → l ≠ 85#8 → l ≠ 170#8 → l ≠ 255#8 → rawMap .fault l = none) ∧
  (∀ l : Byte, ∃ v ∈ [0, 85, 170, 255], rawMap .nearest l = rawMap .fault (BitVec.ofNat 8 v) ∧
    ∀ u ∈ [0, 85, 170, 255], ((l.toNat : Int) - v).natAbs ≤ ((l.toNat : Int) - u).natAbs)

/-! ### Bus reads -/

/-- RD_CAM_CTRL (R130; the aliases by decision D9): the read returns regs[0] and changes nothing; bit 0 of it is 0 in
every state that meets the invariant; its row. -/
def Obligations.ControlByteRead : Prop :=
  (∀ (ign : BitVec 6) (s : State), exec (.rdCamCtrl ign) s = .next { s with readResult := some (s.reg 0) }) ∧
  (∀ s : State, Inv s → (s.reg 0).getLsbD 0 = false) ∧
  (∀ (ra : Bool) (t : TWord), (t &&& 0x1E07F00#25 = 0x0A00000#25 ∧ ra = true) ↔ decode ra t = .rdCamCtrl (fieldIgn t))

/-- RD_CAM_ZERO (R131): any other masked address reads 0 whatever the register holds; its row, after row 15. -/
def Obligations.OtherRegistersReadZero : Prop :=
  (∀ (ign : BitVec 6) (r : BitVec 7) (s : State),
    exec (.rdCamZero ign r) s = .next { s with readResult := some 0x00#8 }) ∧
  (∀ (ra : Bool) (t : TWord), (t &&& 0x1E00000#25 = 0x0A00000#25 ∧ fieldM7 t ≠ 0#7 ∧ ra = true) ↔
    decode ra t = .rdCamZero (fieldIgn t) (fieldM7 t))

/-- RD_CAM_RAM (R132), RAM access enabled: the read returns the byte at RAM_BANK_BASE(ramBankSel) + a[12:0] and changes
nothing; outside sram it is refused; its row. The mask 0x1FFF and the bank bases are the spec's decisions D5, D6. -/
def Obligations.RamModeReadReturnsByte : Prop :=
  (∀ (off : BitVec 13) (s : State), s.config.ramPresent = true → s.ramEnable = true →
    s.config.ramBankBase[s.ramBankSel.toNat] + off.toNat < s.config.ramBytes →
    exec (.rdCamRam off) s = .next { s with
      readResult := some (s.sram.read (s.config.ramBankBase[s.ramBankSel.toNat] + off.toNat)) }) ∧
  (∀ (off : BitVec 13) (s : State), s.config.ramPresent = true → s.ramEnable = true →
    s.config.ramBytes ≤ s.config.ramBankBase[s.ramBankSel.toNat] + off.toNat →
    exec (.rdCamRam off) s = .refused (.ramRange { s with refused := true })) ∧
  (∀ (ra : Bool) (t : TWord), (t &&& 0x1E00000#25 = 0x0A00000#25 ∧ ra = false) ↔ decode ra t = .rdCamRam (fieldOff t))

/-- RD_CAM_RAM (R132) while RAM access is disabled, or with no RAM: the read returns DISABLED_READ, a free byte (decision
D7; log 7): nothing is said of its value, and each draw is the model's next one. -/
def Obligations.DisabledReadIsFree : Prop :=
  ∀ (off : BitVec 13) (s : State), (s.config.ramPresent = false ∨ s.ramEnable = false) →
    exec (.rdCamRam off) s =
      .next { s with readResult := some (Config.disabledRead s.draws), draws := s.draws + 1 }

/-- RD_UNROUTED_LO, W4, HI (R133; decision D8): a read outside window 5 is refused on every path; the words that decode
so are exactly the reads of the other windows. -/
def Obligations.UnroutedReadsRefused : Prop :=
  (∀ (a : BitVec 15) (s : State), exec (.rdUnroutedLo a) s = .refused (.readUnrouted { s with refused := true })) ∧
  (∀ (off : BitVec 13) (s : State), exec (.rdUnroutedW4 off) s = .refused (.readUnrouted { s with refused := true })) ∧
  (∀ (a : BitVec 14) (s : State), exec (.rdUnroutedHi a) s = .refused (.readUnrouted { s with refused := true })) ∧
  (∀ (ra : Bool) (t : TWord), (fieldRw t = false ∧ fieldWin t ≠ 5#3) ↔
    (∃ a, decode ra t = .rdUnroutedLo a) ∨ (∃ off, decode ra t = .rdUnroutedW4 off) ∨ ∃ a, decode ra t = .rdUnroutedHi a)

/-- Every bus read is free of side effects (R61): it changes no state of the block and emits nothing; only the model's own
read result and draw counter move (logs 7, 9). -/
def Obligations.ReadsHaveNoSideEffects : Prop :=
  ∀ (i : Instr) (s t : State), i.isRead = true → exec i s = .next t →
    t = { s with readResult := t.readResult, draws := t.draws }

/-! ### Whole-machine rules -/

/-- Access rights of the register file (R27): only a window-5 write in register-active mode writes it; a bus read takes
regs[0] from it and nothing else, and every other transaction but a window-5 write nothing at all; a capture takes
regs[2], regs[3] and regs[6..53]. What an outcome does not take from the registers, it does not change with them. -/
def Obligations.RegisterAccessRights : Prop :=
  (∀ s t : State, step s = .next t → t.regs ≠ s.regs →
    s.registersActive = true ∧ ∃ w, s.nextWord = some w ∧ isWriteTo 5#3 w) ∧
  (∀ (i : Instr) (s : State) (regs' : List Byte), (∀ ign d, i ≠ .wrCamTrigger ign d) → (∀ ign r d, i ≠ .wrCamReg ign r d) →
    (i.isRead = true → regs'.getD 0 0x00#8 = s.reg 0) →
    exec i { s with regs := regs' } = outcomeWithRegs regs' (exec i s)) ∧
  (∀ (s : State) (regs' : List Byte),
    (∀ i, i = 2 ∨ i = 3 ∨ (6 ≤ i ∧ i ≤ 53) → regs'.getD i 0x00#8 = s.reg i) →
    capture { s with regs := regs' } = outcomeWithRegs regs' (capture s))

/-- The block's behaviour does not depend on N (R24): from two sessions that differ at most in N and the margin, a step
ends alike, in states that again differ at most so; the host's and the bus's view is the same. -/
def Obligations.RegisterCountUnobservable : Prop :=
  ∀ s s' : State, sameButN s s' → sameOutcomeButN (step s) (step s')

/-- Every step that answers a next state keeps the invariant, from every state that meets it (R20, R22, R31, R52, R205). -/
def Obligations.StepKeepsInvariant : Prop :=
  ∀ s t : State, Inv s → step s = .next t → Inv t

/-- The reset state meets the invariant. -/
def Obligations.ResetMeetsInvariant : Prop := Inv State.reset

/-- Session start meets the invariant for every admissible configuration and every launch sram in canonical form inside
RAM_BYTES (R220, R221). -/
def Obligations.LaunchMeetsInvariant : Prop :=
  ∀ (c : Config) (m : Memory), configAdmissible c = true → m.wf = true → m.within c.ramBytes = true →
    Inv (State.launch c m)

/-- Session start leaves the values of R40 (all the spec's own choice, decision D11; log 4): every register 0, RAM mode,
RAM access disabled, bank 0, direct mapping on, dirty clear, no marks, an empty history; sram is the launch sram. -/
def Obligations.SessionStartValues : Prop :=
  ∀ (c : Config) (m : Memory), (State.launch c m).regs.length = c.regCount ∧
    (∀ i, (State.launch c m).reg i = 0x00#8) ∧ (State.launch c m).registersActive = false ∧
    (State.launch c m).ramEnable = false ∧ (State.launch c m).ramBankSel = 0#4 ∧ (State.launch c m).directRamMap = true ∧
    (State.launch c m).dirty = false ∧ (State.launch c m).sram = m ∧ (State.launch c m).faulted = false ∧
    (State.launch c m).refused = false ∧ (State.launch c m).hist = [] ∧ State.reset = State.launch Config.default []

/-- No step changes the configuration or a sticky mark (R6, R36), and the history only grows (R11). -/
def Obligations.ConfigurationAndMarksKept : Prop :=
  ∀ s t : State, step s = .next t →
    t.config = s.config ∧ t.faulted = s.faulted ∧ t.refused = s.refused ∧ ∃ es, t.hist = s.hist ++ es

/-- registersActive (R28): only a window-2 write changes it, to 1 when the value is at least 0x10 and to 0 when it is
less. -/
def Obligations.ModeChangesOnlyByWindow2 : Prop :=
  ∀ s t : State, step s = .next t →
    (∀ w, s.nextWord = some w → isWriteTo 2#3 w → t.registersActive = decide (0x10 ≤ (fieldD w).toNat)) ∧
    ((∀ w, s.nextWord = some w → ¬ isWriteTo 2#3 w) → t.registersActive = s.registersActive)

/-- ramEnable, ramBankSel and directRamMap (R29, R30, R31): each changes by the writes that name it and by nothing else.
The enable's dependence on RAM_PRESENT is the spec's decision D21. -/
def Obligations.ControlBitsWriters : Prop :=
  ∀ s t : State, step s = .next t →
    (∀ w, s.nextWord = some w →
      (isWriteTo 0#3 w ∧ fieldD w = 0x00#8 → t.ramEnable = false) ∧
      (isWriteTo 0#3 w ∧ fieldD w = 0x0A#8 → t.ramEnable = (s.config.ramPresent || s.ramEnable)) ∧
      (isWriteTo 2#3 w ∧ (fieldD w).toNat < 0x10 → t.ramBankSel.toNat = (fieldD w).toNat) ∧
      (isWriteTo 2#3 w → t.directRamMap = decide ((fieldD w).toNat < 0x10))) ∧
    ((∀ w, s.nextWord = some w → ¬ (isWriteTo 0#3 w ∧ (fieldD w = 0x00#8 ∨ fieldD w = 0x0A#8))) →
      t.ramEnable = s.ramEnable) ∧
    ((∀ w, s.nextWord = some w → ¬ (isWriteTo 2#3 w ∧ (fieldD w).toNat < 0x10)) → t.ramBankSel = s.ramBankSel) ∧
    ((∀ w, s.nextWord = some w → ¬ isWriteTo 2#3 w) → t.directRamMap = s.directRamMap)

/-- dirty (R32): every trigger write sets it, whether or not a frame is delivered (90_conflicts.md C5); the block never
clears it; only the host does (decision D23). -/
def Obligations.DirtySetByTriggersClearedByHost : Prop :=
  ∀ s t : State, step s = .next t →
    (∀ w, s.nextWord = some w → isTrigger s.registersActive w → t.dirty = true) ∧
    (∀ w, s.nextWord = some w → ¬ isTrigger s.registersActive w → t.dirty = s.dirty) ∧
    (∀ rest, s.inputs = .clearDirty :: rest → t.dirty = false) ∧
    (s.nextWord = none → (∀ rest, s.inputs ≠ .clearDirty :: rest) → t.dirty = s.dirty)

/-- A step emits at most one event, a bus read none, and a move of the host none (R61, R210). -/
def Obligations.AtMostOneEvent : Prop :=
  ∀ s t : State, step s = .next t → ∃ es, t.hist = s.hist ++ es ∧ es.length ≤ 1 ∧
    (s.nextWord = none → es = []) ∧ (∀ w, s.nextWord = some w → fieldRw w = false → es = [])

/-- Cartridge RAM (R53, R232): a transaction changes no byte outside [0x100, 0xF00), and only a trigger write changes one
inside, where the host does not itself store window-5 writes (HOST_RAM_WRITE = NONE, D25); neither ramEnable nor the bank
has a say in it (decisions D4, D10). -/
def Obligations.OnlyCapturesWriteRam : Prop :=
  ∀ (s t : State) (w : TWord), s.sram.wf = true → s.config.hostRamWrite = .none → s.nextWord = some w →
    step s = .next t →
    (∀ a, ¬ inBuffer a → t.sram.read a = s.sram.read a) ∧ (¬ isTrigger s.registersActive w → t.sram = s.sram)

/-- The write rows together are the one function of R113, on every address, value and state. -/
def Obligations.WriteDispatch : Prop :=
  ∀ (a : Word16) (d : Byte) (s : State), 54 ≤ s.config.regCount →
    exec (decode s.registersActive (busWord true a d)) s = busWrite a d s

/-- The read rows together are the one function of R134, on every address and state; D is ignored (R70). -/
def Obligations.ReadDispatch : Prop :=
  ∀ (a : Word16) (d : Byte) (s : State), exec (decode s.registersActive (busWord false a d)) s = busRead a s
end

