-- ==== Sys2Proof/Laws/Memory.lean ====
section
/-! SUPPORT. Cartridge RAM: every memory operation keeps the canonical form and stays inside sram, a read after a write to
the same byte gives the value written, and every other byte reads as before. -/

namespace Sys2Proof.Machine

variable {m m' : Memory} {a b lo n : Nat} {v : Byte}

/-! ### The canonical form -/

theorem Memory.wfFrom_cons {c : Host.Cell} :
    Memory.wfFrom lo (c :: m) = true ↔ lo ≤ c.1 ∧ c.2 ≠ unlistedByte ∧ Memory.wfFrom (c.1 + 1) m = true := by
  simp [Memory.wfFrom, and_assoc]

theorem Memory.wfFrom_mono (h : Memory.wfFrom lo m = true) (hb : b ≤ lo) : Memory.wfFrom b m = true := by
  cases m with
  | nil => rfl
  | cons c m => rw [Memory.wfFrom_cons] at h ⊢; exact ⟨hb.trans h.1, h.2⟩

theorem Memory.read_below (h : Memory.wfFrom lo m = true) (ha : a < lo) : m.read a = unlistedByte := by
  cases m with
  | nil => rfl
  | cons c m =>
    rw [Memory.wfFrom_cons] at h
    simp [Memory.read, show a < c.1 by omega]

theorem Memory.cell_wfFrom (h : Memory.wfFrom (a + 1) m = true) (ha : lo ≤ a) :
    Memory.wfFrom lo (Memory.cell a v m) = true := by
  unfold Memory.cell
  split
  · exact Memory.wfFrom_mono h (by omega)
  · exact Memory.wfFrom_cons.2 ⟨ha, ‹_›, h⟩

theorem Memory.write_wfFrom (h : Memory.wfFrom lo m = true) (ha : lo ≤ a) :
    Memory.wfFrom lo (m.write a v) = true := by
  induction m generalizing lo with
  | nil => exact Memory.cell_wfFrom rfl ha
  | cons c m ih =>
    rw [Memory.wfFrom_cons] at h
    rw [Memory.write]
    split
    · exact Memory.cell_wfFrom (Memory.wfFrom_cons.2 ⟨by omega, h.2⟩) ha
    · split
      · subst a; exact Memory.cell_wfFrom h.2.2 ha
      · exact Memory.wfFrom_cons.2 ⟨h.1, h.2.1, ih h.2.2 (by omega)⟩

theorem Memory.write_wf (h : m.wf = true) : (m.write a v).wf = true := Memory.write_wfFrom h (Nat.zero_le _)

theorem Memory.write16_wf {w : Word16} (h : m.wf = true) : (m.write16 a w).wf = true :=
  Memory.write_wf (Memory.write_wf h)

/-! ### Reads after writes -/

theorem Memory.read_cell_same (h : Memory.wfFrom (a + 1) m = true) : (Memory.cell a v m).read a = v := by
  unfold Memory.cell
  split
  · rw [Memory.read_below h (by omega)]; exact Eq.symm ‹_›
  · simp [Memory.read]

theorem Memory.read_cell_other (h : Memory.wfFrom (a + 1) m = true) (hb : b ≠ a) :
    (Memory.cell a v m).read b = m.read b := by
  unfold Memory.cell
  split
  · rfl
  · by_cases hlt : b < a
    · simp [Memory.read, hlt, Memory.read_below h (show b < a + 1 by omega)]
    · simp [Memory.read, hlt, hb]

theorem Memory.read_write_same_from (h : Memory.wfFrom lo m = true) : (m.write a v).read a = v := by
  induction m generalizing lo with
  | nil => exact Memory.read_cell_same rfl
  | cons c m ih =>
    rw [Memory.wfFrom_cons] at h
    rw [Memory.write]
    split
    · exact Memory.read_cell_same (Memory.wfFrom_cons.2 ⟨by omega, h.2⟩)
    · split
      · subst a; exact Memory.read_cell_same h.2.2
      · rw [Memory.read, if_neg ‹_›, if_neg ‹_›]; exact ih h.2.2

theorem Memory.read_write_other_from (h : Memory.wfFrom lo m = true) (hb : b ≠ a) :
    (m.write a v).read b = m.read b := by
  induction m generalizing lo with
  | nil => exact Memory.read_cell_other rfl hb
  | cons c m ih =>
    rw [Memory.wfFrom_cons] at h
    rw [Memory.write]
    split
    · exact Memory.read_cell_other (Memory.wfFrom_cons.2 ⟨by omega, h.2⟩) hb
    · split
      · subst a
        rw [Memory.read_cell_other h.2.2 hb, Memory.read]
        split
        · exact Memory.read_below h.2.2 (by omega)
        · simp
      · simp only [Memory.read, ih h.2.2]

theorem Memory.read_write_same (h : m.wf = true) : (m.write a v).read a = v := Memory.read_write_same_from h

theorem Memory.read_write_other (h : m.wf = true) (hb : b ≠ a) : (m.write a v).read b = m.read b :=
  Memory.read_write_other_from h hb

theorem Memory.read_write (h : m.wf = true) : (m.write a v).read b = if b = a then v else m.read b := by
  split
  · subst b; exact Memory.read_write_same h
  · exact Memory.read_write_other h ‹_›

/-- What a 16-bit store leaves at every byte: little-endian (R10). -/
theorem Memory.read_write16 {w : Word16} (h : m.wf = true) : (m.write16 a w).read b =
    if b = a then w.extractLsb' 0 8 else if b = a + 1 then w.extractLsb' 8 8 else m.read b := by
  rw [Memory.write16, Memory.read_write (Memory.write_wf h), Memory.read_write h]
  by_cases h0 : b = a
  · subst b; simp
  · simp [h0]

/-- The bits of a 16-bit load: the low byte at the address, the high byte above it (R10). -/
theorem Memory.read16_bit {i : Nat} :
    (m.read16 a).getLsbD i = if i < 8 then (m.read a).getLsbD i else (m.read (a + 1)).getLsbD (i - 8) := by
  have h := BitVec.getLsbD_append (x := m.read (a + 1)) (y := m.read a) (i := i)
  exact h.trans (by simp)

/-! ### Canonical memories are equal where they read equally -/

theorem Memory.eq_of_read_eq_from (h : Memory.wfFrom lo m = true) (h' : Memory.wfFrom lo m' = true)
    (e : ∀ a, m.read a = m'.read a) : m = m' := by
  induction m generalizing lo m' with
  | nil =>
    cases m' with
    | nil => rfl
    | cons c m' =>
      rw [Memory.wfFrom_cons] at h'
      have := e c.1
      simp [Memory.read] at this
      exact absurd this.symm h'.2.1
  | cons c m ih =>
    rw [Memory.wfFrom_cons] at h
    cases m' with
    | nil =>
      have := e c.1
      simp [Memory.read] at this
      exact absurd this h.2.1
    | cons c' m' =>
      rw [Memory.wfFrom_cons] at h'
      have e1 := e c.1
      have e2 := e c'.1
      have hk : c.1 = c'.1 := by
        by_contra hne
        rcases Nat.lt_or_ge c.1 c'.1 with hlt | hge
        · simp [Memory.read, hlt] at e1; exact h.2.1 e1
        · simp [Memory.read, show c'.1 < c.1 by omega] at e2; exact h'.2.1 e2.symm
      have hv : c.2 = c'.2 := by simpa [Memory.read, hk] using e1
      have hc : c = c' := Prod.ext hk hv
      subst hc
      refine congrArg _ (ih h.2.2 h'.2.2 fun b => ?_)
      have eb := e b
      rcases Nat.lt_trichotomy b c.1 with hlt | heq | hgt
      · rw [Memory.read_below h.2.2 (by omega), Memory.read_below h'.2.2 (by omega)]
      · rw [Memory.read_below h.2.2 (by omega), Memory.read_below h'.2.2 (by omega)]
      · simpa [Memory.read, show ¬ b < c.1 by omega, show b ≠ c.1 by omega] using eb

theorem Memory.eq_of_read_eq (h : m.wf = true) (h' : m'.wf = true) (e : ∀ a, m.read a = m'.read a) : m = m' :=
  Memory.eq_of_read_eq_from h h' e

/-! ### Staying inside sram -/

theorem Memory.within_cell (h : m.within n = true) (ha : a < n) : (Memory.cell a v m).within n = true := by
  unfold Memory.cell
  split
  · exact h
  · simpa [Memory.within, ha] using h

theorem Memory.within_write (h : m.within n = true) (ha : a < n) : (m.write a v).within n = true := by
  induction m with
  | nil => exact Memory.within_cell rfl ha
  | cons c m ih =>
    have hc : c.1 < n ∧ Memory.within m n = true := by simpa [Memory.within] using h
    rw [Memory.write]
    split
    · exact Memory.within_cell h ha
    · split
      · exact Memory.within_cell hc.2 ha
      · simpa [Memory.within, hc.1] using ih hc.2

theorem Memory.within_write16 {w : Word16} (h : m.within n = true) (ha : a + 1 < n) : (m.write16 a w).within n = true :=
  Memory.within_write (Memory.within_write h (by omega)) ha

/-! ### Zeroing (R142) -/

@[simp] theorem outBase_eq : outBase = 0x100 := rfl
@[simp] theorem outSize_eq : outSize = 0xE00 := rfl

variable {hi : Nat}

theorem zeroRange_wfFrom {k : Nat} (h : Memory.wfFrom k m = true) : Memory.wfFrom k (zeroRange lo hi m) = true := by
  induction m generalizing k with
  | nil => rfl
  | cons c m ih =>
    rw [Memory.wfFrom_cons] at h
    rw [zeroRange]
    split
    · exact Memory.wfFrom_mono (ih h.2.2) (by omega)
    · exact Memory.wfFrom_cons.2 ⟨h.1, h.2.1, ih h.2.2⟩

theorem zeroRange_wf (h : m.wf = true) : (zeroRange lo hi m).wf = true := zeroRange_wfFrom h

theorem zeroRange_within (h : m.within n = true) : (zeroRange lo hi m).within n = true := by
  induction m with
  | nil => rfl
  | cons c m ih =>
    have hc : c.1 < n ∧ Memory.within m n = true := by simpa [Memory.within] using h
    rw [zeroRange]
    split
    · exact ih hc.2
    · simpa [Memory.within, hc.1] using ih hc.2

theorem read_zeroRange_from {k : Nat} (h : Memory.wfFrom k m = true) :
    (zeroRange lo hi m).read b = if lo ≤ b ∧ b < hi then 0x00#8 else m.read b := by
  induction m generalizing k with
  | nil => split <;> rfl
  | cons c m ih =>
    rw [Memory.wfFrom_cons] at h
    have hz := ih h.2.2
    rw [zeroRange, Memory.read]
    rcases Nat.lt_trichotomy b c.1 with hlt | heq | hgt
    · have hm : Memory.read m b = unlistedByte := Memory.read_below h.2.2 (by omega)
      rw [hm] at hz
      split
      · simpa [hlt] using hz
      · simp only [Memory.read, hlt, if_true]; split <;> rfl
    · have hm : Memory.read m b = unlistedByte := Memory.read_below h.2.2 (by omega)
      rw [hm] at hz
      subst heq
      split
      · rw [hz]; simp [*]
      · simp [Memory.read, *]
    · split
      · rw [hz]; simp [show ¬ b < c.1 by omega, show b ≠ c.1 by omega]
      · rw [Memory.read, hz]; simp [show ¬ b < c.1 by omega, show b ≠ c.1 by omega]

theorem read_zeroRange (h : m.wf = true) :
    (zeroRange lo hi m).read b = if lo ≤ b ∧ b < hi then 0x00#8 else m.read b := read_zeroRange_from h

/-- The stores made one by one at the listed offsets. -/
theorem stores_wf {as : List Nat} (h : m.wf = true) : (as.foldl (fun m a => m.write a 0x00#8) m : Memory).wf = true := by
  induction as generalizing m with
  | nil => exact h
  | cons a as ih => exact ih (Memory.write_wf h)

theorem read_stores {as : List Nat} (h : m.wf = true) :
    Memory.read (as.foldl (fun m a => m.write a 0x00#8) m : Memory) b = if b ∈ as then 0x00#8 else m.read b := by
  induction as generalizing m with
  | nil => rfl
  | cons a as ih =>
    rw [List.foldl_cons, ih (Memory.write_wf h), Memory.read_write h]
    by_cases hb : b = a <;> by_cases hm : b ∈ as <;> simp [hb, hm]

/-- Zeroing in one pass is the byte stores of 0x00 made one by one (R59, R142). -/
theorem zeroRange_eq_stores (h : m.wf = true) :
    zeroRange lo (lo + n) m = (List.range' lo n).foldl (fun m a => m.write a 0x00#8) m := by
  refine Memory.eq_of_read_eq (zeroRange_wf h) (stores_wf h) fun b => ?_
  rw [read_zeroRange h, read_stores h]
  simp [List.mem_range'_1]

theorem zeroBuffer_wf (h : m.wf = true) : (zeroBuffer m).wf = true := zeroRange_wf h

theorem zeroBuffer_within (h : m.within n = true) : (zeroBuffer m).within n = true := zeroRange_within h

/-- After the zeroing the buffer reads 0 and every other byte reads as before (R142). -/
theorem read_zeroBuffer (h : m.wf = true) :
    (zeroBuffer m).read b = if 0x100 ≤ b ∧ b < 0xF00 then 0x00#8 else m.read b := read_zeroRange h

end Sys2Proof.Machine
end

