-- ==== Sys2Proof/Laws/Packer.lean ====
section
/-! SUPPORT. What PACK and the pixel loop do to cartridge RAM: which bits they set, that they touch only the output buffer,
and that they keep the canonical form. -/

namespace Sys2Proof.Machine

variable {m : Memory} {x y b i n : Nat} {c : Code} {codeOf : Nat → Nat → Except Byte Code} {ps : List (Nat × Nat)}

/-- The pixels of the frame (R143). -/
theorem mem_pixelOrder {p : Nat × Nat} : p ∈ pixelOrder ↔ p.1 < 128 ∧ p.2 < 112 := by
  obtain ⟨x, y⟩ := p
  simp [pixelOrder, frameHeight, frameWidth, and_comm]

/-- Every pixel's word lies in the output buffer (R185). -/
theorem pixelAddr_range (hy : y < 112) : 0x100 ≤ pixelAddr x y ∧ pixelAddr x y + 1 < 0xF00 := by
  simp only [pixelAddr, tileOffset, outBase_eq]; omega

theorem pixelShift_lt : pixelShift x < 8 := by simp only [pixelShift]; omega

/-- The bits of a shifted code pattern: bit `shift` of each byte, from the code's bit of that plane (R183). -/
theorem codePattern_shift_bit {k : Nat} (hi : i < 8) (hk : k < 8) :
    (codePattern c <<< k).getLsbD i = decide (i = k ∧ planeBit 0 c = 1) ∧
    (codePattern c <<< k).getLsbD (8 + i) = decide (i = k ∧ planeBit 1 c = 1) := by
  cases c <;> interval_cases k <;> interval_cases i <;> decide

/-- PACK sets the pixel's bit in the plane bytes its code has a bit in, and changes no other bit (R183). -/
theorem pack_bit (h : m.wf = true) (hi : i < 8) : ((pack x y c m).read b).getLsbD i =
    ((m.read b).getLsbD i || decide (i = pixelShift x ∧
      (b = pixelAddr x y ∧ planeBit 0 c = 1 ∨ b = pixelAddr x y + 1 ∧ planeBit 1 c = 1))) := by
  have hb := codePattern_shift_bit (c := c) hi (pixelShift_lt (x := x))
  rw [pack, Memory.read_write16 h]
  by_cases h0 : b = pixelAddr x y
  · subst b
    simp [Memory.read16_bit, hi, hb.1]
  · by_cases h1 : b = pixelAddr x y + 1
    · subst b
      simp [Memory.read16_bit, hi, hb.2]
    · simp [h0, h1]

theorem pack_wf (h : m.wf = true) : (pack x y c m).wf = true := Memory.write16_wf h

theorem pack_within (h : m.within n = true) (hy : y < 112) (hn : 0xF00 ≤ n) : (pack x y c m).within n = true :=
  Memory.within_write16 h (by have := pixelAddr_range (x := x) hy; omega)

/-- PACK leaves every byte but the pixel's two as it was (R183). -/
theorem pack_other (h : m.wf = true) (h0 : b ≠ pixelAddr x y) (h1 : b ≠ pixelAddr x y + 1) :
    (pack x y c m).read b = m.read b := by
  simp [pack, Memory.read_write16 h, h0, h1]

/-! ### The pixel loop -/

theorem packPixels_wf (h : m.wf = true) : (packPixels codeOf ps m).1.wf = true := by
  induction ps generalizing m with
  | nil => exact h
  | cons p ps ih =>
    simp only [packPixels]
    split
    · exact ih (pack_wf h)
    · exact h

theorem packPixels_within (h : m.within n = true) (hp : ∀ p ∈ ps, p.2 < 112) (hn : 0xF00 ≤ n) :
    (packPixels codeOf ps m).1.within n = true := by
  induction ps generalizing m with
  | nil => exact h
  | cons p ps ih =>
    simp only [packPixels]
    split
    · exact ih (pack_within h (hp p (by simp)) hn) fun q hq => hp q (by simp [hq])
    · exact h

/-- The loop touches only the output buffer (R185). -/
theorem packPixels_outside (h : m.wf = true) (hp : ∀ p ∈ ps, p.2 < 112) (hb : ¬ inBuffer b) :
    (packPixels codeOf ps m).1.read b = m.read b := by
  induction ps generalizing m with
  | nil => rfl
  | cons p ps ih =>
    have hr := pixelAddr_range (x := p.1) (hp p (by simp))
    simp only [packPixels]
    split
    · rw [ih (pack_wf h) fun q hq => hp q (by simp [hq])]
      exact pack_other h (by omega) (by omega)
    · rfl

/-- The loop ends early exactly at the first pixel that has no code; the pixels before it have one (R149). -/
theorem packPixels_stop {x y : Nat} {l : Byte} (h : (packPixels codeOf ps m).2 = some (x, y, l)) :
    ∃ before after, ps = before ++ (x, y) :: after ∧ codeOf x y = .error l ∧
      (∀ p ∈ before, ∃ c, codeOf p.1 p.2 = .ok c) ∧
      (packPixels codeOf ps m).1 = (packPixels codeOf before m).1 := by
  induction ps generalizing m with
  | nil => simp [packPixels] at h
  | cons p ps ih =>
    simp only [packPixels] at h ⊢
    split at h
    · rename_i c hc
      obtain ⟨before, after, e, he, hb, hm⟩ := ih h
      refine ⟨p :: before, after, by rw [e]; rfl, he, ?_, by simp [packPixels, hc, hm]⟩
      intro q hq
      rcases List.mem_cons.1 hq with rfl | hq
      · exact ⟨c, hc⟩
      · exact hb q hq
    · rename_i l' hl
      obtain ⟨rfl, rfl, rfl⟩ : p.1 = x ∧ p.2 = y ∧ l' = l := by simpa using h
      exact ⟨[], ps, rfl, hl, by simp, by simp [packPixels]⟩

/-- The loop runs to its end where every pixel has a code. -/
theorem packPixels_complete {code : Nat → Nat → Code} (hc : ∀ p ∈ ps, codeOf p.1 p.2 = .ok (code p.1 p.2)) :
    (packPixels codeOf ps m).2 = none := by
  induction ps generalizing m with
  | nil => rfl
  | cons p ps ih =>
    simp only [packPixels, hc p (by simp)]
    exact ih fun q hq => hc q (by simp [hq])

/-- A loop that runs to its end has set, beside the bits that were set, exactly the bits of its pixels' codes. -/
theorem packPixels_bit {code : Nat → Nat → Code} (h : m.wf = true) (hi : i < 8)
    (hc : ∀ p ∈ ps, codeOf p.1 p.2 = .ok (code p.1 p.2)) :
    ((packPixels codeOf ps m).1.read b).getLsbD i = true ↔ (m.read b).getLsbD i = true ∨
      ∃ p ∈ ps, i = pixelShift p.1 ∧ (b = pixelAddr p.1 p.2 ∧ planeBit 0 (code p.1 p.2) = 1 ∨
        b = pixelAddr p.1 p.2 + 1 ∧ planeBit 1 (code p.1 p.2) = 1) := by
  induction ps generalizing m with
  | nil => simp [packPixels]
  | cons p ps ih =>
    simp only [packPixels, hc p (by simp)]
    rw [ih (pack_wf h) fun q hq => hc q (by simp [hq]), pack_bit h hi]
    simp only [Bool.or_eq_true, decide_eq_true_eq, List.mem_cons, exists_eq_or_imp, or_assoc]

end Sys2Proof.Machine
end

