-- ==== Sys2Proof/Laws/State.lean ====
section
/-! SUPPORT. One lemma per field per update of the state, each true by rfl: no later proof unfolds a record update. -/

namespace Sys2Proof.Machine

variable (s : State)

/-! ### setReg -/

@[simp] theorem State.setReg_config (i : Nat) (v : Byte) : (s.setReg i v).config = s.config := rfl
@[simp] theorem State.setReg_regs (i : Nat) (v : Byte) : (s.setReg i v).regs = s.regs.set i v := rfl
@[simp] theorem State.setReg_registersActive (i : Nat) (v : Byte) : (s.setReg i v).registersActive = s.registersActive := rfl
@[simp] theorem State.setReg_ramEnable (i : Nat) (v : Byte) : (s.setReg i v).ramEnable = s.ramEnable := rfl
@[simp] theorem State.setReg_ramBankSel (i : Nat) (v : Byte) : (s.setReg i v).ramBankSel = s.ramBankSel := rfl
@[simp] theorem State.setReg_directRamMap (i : Nat) (v : Byte) : (s.setReg i v).directRamMap = s.directRamMap := rfl
@[simp] theorem State.setReg_dirty (i : Nat) (v : Byte) : (s.setReg i v).dirty = s.dirty := rfl
@[simp] theorem State.setReg_sram (i : Nat) (v : Byte) : (s.setReg i v).sram = s.sram := rfl
@[simp] theorem State.setReg_hist (i : Nat) (v : Byte) : (s.setReg i v).hist = s.hist := rfl
@[simp] theorem State.setReg_faulted (i : Nat) (v : Byte) : (s.setReg i v).faulted = s.faulted := rfl
@[simp] theorem State.setReg_refused (i : Nat) (v : Byte) : (s.setReg i v).refused = s.refused := rfl
@[simp] theorem State.setReg_inputs (i : Nat) (v : Byte) : (s.setReg i v).inputs = s.inputs := rfl
@[simp] theorem State.setReg_images (i : Nat) (v : Byte) : (s.setReg i v).images = s.images := rfl
@[simp] theorem State.setReg_readResult (i : Nat) (v : Byte) : (s.setReg i v).readResult = s.readResult := rfl
@[simp] theorem State.setReg_draws (i : Nat) (v : Byte) : (s.setReg i v).draws = s.draws := rfl

/-! ### setSram -/

@[simp] theorem State.setSram_config (m : Memory) : (s.setSram m).config = s.config := rfl
@[simp] theorem State.setSram_regs (m : Memory) : (s.setSram m).regs = s.regs := rfl
@[simp] theorem State.setSram_registersActive (m : Memory) : (s.setSram m).registersActive = s.registersActive := rfl
@[simp] theorem State.setSram_ramEnable (m : Memory) : (s.setSram m).ramEnable = s.ramEnable := rfl
@[simp] theorem State.setSram_ramBankSel (m : Memory) : (s.setSram m).ramBankSel = s.ramBankSel := rfl
@[simp] theorem State.setSram_directRamMap (m : Memory) : (s.setSram m).directRamMap = s.directRamMap := rfl
@[simp] theorem State.setSram_dirty (m : Memory) : (s.setSram m).dirty = s.dirty := rfl
@[simp] theorem State.setSram_sram (m : Memory) : (s.setSram m).sram = m := rfl
@[simp] theorem State.setSram_hist (m : Memory) : (s.setSram m).hist = s.hist := rfl
@[simp] theorem State.setSram_faulted (m : Memory) : (s.setSram m).faulted = s.faulted := rfl
@[simp] theorem State.setSram_refused (m : Memory) : (s.setSram m).refused = s.refused := rfl
@[simp] theorem State.setSram_inputs (m : Memory) : (s.setSram m).inputs = s.inputs := rfl
@[simp] theorem State.setSram_images (m : Memory) : (s.setSram m).images = s.images := rfl
@[simp] theorem State.setSram_readResult (m : Memory) : (s.setSram m).readResult = s.readResult := rfl
@[simp] theorem State.setSram_draws (m : Memory) : (s.setSram m).draws = s.draws := rfl

/-! ### emit -/

@[simp] theorem State.emit_config (e : Event) : (s.emit e).config = s.config := rfl
@[simp] theorem State.emit_regs (e : Event) : (s.emit e).regs = s.regs := rfl
@[simp] theorem State.emit_registersActive (e : Event) : (s.emit e).registersActive = s.registersActive := rfl
@[simp] theorem State.emit_ramEnable (e : Event) : (s.emit e).ramEnable = s.ramEnable := rfl
@[simp] theorem State.emit_ramBankSel (e : Event) : (s.emit e).ramBankSel = s.ramBankSel := rfl
@[simp] theorem State.emit_directRamMap (e : Event) : (s.emit e).directRamMap = s.directRamMap := rfl
@[simp] theorem State.emit_dirty (e : Event) : (s.emit e).dirty = s.dirty := rfl
@[simp] theorem State.emit_sram (e : Event) : (s.emit e).sram = s.sram := rfl
@[simp] theorem State.emit_hist (e : Event) : (s.emit e).hist = s.hist ++ [e] := rfl
@[simp] theorem State.emit_faulted (e : Event) : (s.emit e).faulted = s.faulted := rfl
@[simp] theorem State.emit_refused (e : Event) : (s.emit e).refused = s.refused := rfl
@[simp] theorem State.emit_inputs (e : Event) : (s.emit e).inputs = s.inputs := rfl
@[simp] theorem State.emit_images (e : Event) : (s.emit e).images = s.images := rfl
@[simp] theorem State.emit_readResult (e : Event) : (s.emit e).readResult = s.readResult := rfl
@[simp] theorem State.emit_draws (e : Event) : (s.emit e).draws = s.draws := rfl

/-! ### answerRead -/

@[simp] theorem State.answerRead_config (v : Byte) : (s.answerRead v).config = s.config := rfl
@[simp] theorem State.answerRead_regs (v : Byte) : (s.answerRead v).regs = s.regs := rfl
@[simp] theorem State.answerRead_registersActive (v : Byte) : (s.answerRead v).registersActive = s.registersActive := rfl
@[simp] theorem State.answerRead_ramEnable (v : Byte) : (s.answerRead v).ramEnable = s.ramEnable := rfl
@[simp] theorem State.answerRead_ramBankSel (v : Byte) : (s.answerRead v).ramBankSel = s.ramBankSel := rfl
@[simp] theorem State.answerRead_directRamMap (v : Byte) : (s.answerRead v).directRamMap = s.directRamMap := rfl
@[simp] theorem State.answerRead_dirty (v : Byte) : (s.answerRead v).dirty = s.dirty := rfl
@[simp] theorem State.answerRead_sram (v : Byte) : (s.answerRead v).sram = s.sram := rfl
@[simp] theorem State.answerRead_hist (v : Byte) : (s.answerRead v).hist = s.hist := rfl
@[simp] theorem State.answerRead_faulted (v : Byte) : (s.answerRead v).faulted = s.faulted := rfl
@[simp] theorem State.answerRead_refused (v : Byte) : (s.answerRead v).refused = s.refused := rfl
@[simp] theorem State.answerRead_inputs (v : Byte) : (s.answerRead v).inputs = s.inputs := rfl
@[simp] theorem State.answerRead_images (v : Byte) : (s.answerRead v).images = s.images := rfl
@[simp] theorem State.answerRead_readResult (v : Byte) : (s.answerRead v).readResult = some v := rfl
@[simp] theorem State.answerRead_draws (v : Byte) : (s.answerRead v).draws = s.draws := rfl

/-! ### answerDisabledRead -/

@[simp] theorem State.answerDisabledRead_config : (s.answerDisabledRead).config = s.config := rfl
@[simp] theorem State.answerDisabledRead_regs : (s.answerDisabledRead).regs = s.regs := rfl
@[simp] theorem State.answerDisabledRead_registersActive : (s.answerDisabledRead).registersActive = s.registersActive := rfl
@[simp] theorem State.answerDisabledRead_ramEnable : (s.answerDisabledRead).ramEnable = s.ramEnable := rfl
@[simp] theorem State.answerDisabledRead_ramBankSel : (s.answerDisabledRead).ramBankSel = s.ramBankSel := rfl
@[simp] theorem State.answerDisabledRead_directRamMap : (s.answerDisabledRead).directRamMap = s.directRamMap := rfl
@[simp] theorem State.answerDisabledRead_dirty : (s.answerDisabledRead).dirty = s.dirty := rfl
@[simp] theorem State.answerDisabledRead_sram : (s.answerDisabledRead).sram = s.sram := rfl
@[simp] theorem State.answerDisabledRead_hist : (s.answerDisabledRead).hist = s.hist := rfl
@[simp] theorem State.answerDisabledRead_faulted : (s.answerDisabledRead).faulted = s.faulted := rfl
@[simp] theorem State.answerDisabledRead_refused : (s.answerDisabledRead).refused = s.refused := rfl
@[simp] theorem State.answerDisabledRead_inputs : (s.answerDisabledRead).inputs = s.inputs := rfl
@[simp] theorem State.answerDisabledRead_images : (s.answerDisabledRead).images = s.images := rfl
@[simp] theorem State.answerDisabledRead_readResult : (s.answerDisabledRead).readResult = some (Config.disabledRead s.draws) := rfl
@[simp] theorem State.answerDisabledRead_draws : (s.answerDisabledRead).draws = s.draws + 1 := rfl

/-! ### afterRequest -/

@[simp] theorem State.afterRequest_config : (s.afterRequest).config = s.config := rfl
@[simp] theorem State.afterRequest_regs : (s.afterRequest).regs = s.regs := rfl
@[simp] theorem State.afterRequest_registersActive : (s.afterRequest).registersActive = s.registersActive := rfl
@[simp] theorem State.afterRequest_ramEnable : (s.afterRequest).ramEnable = s.ramEnable := rfl
@[simp] theorem State.afterRequest_ramBankSel : (s.afterRequest).ramBankSel = s.ramBankSel := rfl
@[simp] theorem State.afterRequest_directRamMap : (s.afterRequest).directRamMap = s.directRamMap := rfl
@[simp] theorem State.afterRequest_dirty : (s.afterRequest).dirty = s.dirty := rfl
@[simp] theorem State.afterRequest_sram : (s.afterRequest).sram = s.sram := rfl
@[simp] theorem State.afterRequest_hist : (s.afterRequest).hist = s.hist := rfl
@[simp] theorem State.afterRequest_faulted : (s.afterRequest).faulted = s.faulted := rfl
@[simp] theorem State.afterRequest_refused : (s.afterRequest).refused = s.refused := rfl
@[simp] theorem State.afterRequest_inputs : (s.afterRequest).inputs = s.inputs := rfl
@[simp] theorem State.afterRequest_images : (s.afterRequest).images = s.images.tail := rfl
@[simp] theorem State.afterRequest_readResult : (s.afterRequest).readResult = s.readResult := rfl
@[simp] theorem State.afterRequest_draws : (s.afterRequest).draws = s.draws := rfl

/-! ### markFaulted -/

@[simp] theorem State.markFaulted_config : (s.markFaulted).config = s.config := rfl
@[simp] theorem State.markFaulted_regs : (s.markFaulted).regs = s.regs := rfl
@[simp] theorem State.markFaulted_registersActive : (s.markFaulted).registersActive = s.registersActive := rfl
@[simp] theorem State.markFaulted_ramEnable : (s.markFaulted).ramEnable = s.ramEnable := rfl
@[simp] theorem State.markFaulted_ramBankSel : (s.markFaulted).ramBankSel = s.ramBankSel := rfl
@[simp] theorem State.markFaulted_directRamMap : (s.markFaulted).directRamMap = s.directRamMap := rfl
@[simp] theorem State.markFaulted_dirty : (s.markFaulted).dirty = s.dirty := rfl
@[simp] theorem State.markFaulted_sram : (s.markFaulted).sram = s.sram := rfl
@[simp] theorem State.markFaulted_hist : (s.markFaulted).hist = s.hist := rfl
@[simp] theorem State.markFaulted_faulted : (s.markFaulted).faulted = true := rfl
@[simp] theorem State.markFaulted_refused : (s.markFaulted).refused = s.refused := rfl
@[simp] theorem State.markFaulted_inputs : (s.markFaulted).inputs = s.inputs := rfl
@[simp] theorem State.markFaulted_images : (s.markFaulted).images = s.images := rfl
@[simp] theorem State.markFaulted_readResult : (s.markFaulted).readResult = s.readResult := rfl
@[simp] theorem State.markFaulted_draws : (s.markFaulted).draws = s.draws := rfl

/-! ### markRefused -/

@[simp] theorem State.markRefused_config : (s.markRefused).config = s.config := rfl
@[simp] theorem State.markRefused_regs : (s.markRefused).regs = s.regs := rfl
@[simp] theorem State.markRefused_registersActive : (s.markRefused).registersActive = s.registersActive := rfl
@[simp] theorem State.markRefused_ramEnable : (s.markRefused).ramEnable = s.ramEnable := rfl
@[simp] theorem State.markRefused_ramBankSel : (s.markRefused).ramBankSel = s.ramBankSel := rfl
@[simp] theorem State.markRefused_directRamMap : (s.markRefused).directRamMap = s.directRamMap := rfl
@[simp] theorem State.markRefused_dirty : (s.markRefused).dirty = s.dirty := rfl
@[simp] theorem State.markRefused_sram : (s.markRefused).sram = s.sram := rfl
@[simp] theorem State.markRefused_hist : (s.markRefused).hist = s.hist := rfl
@[simp] theorem State.markRefused_faulted : (s.markRefused).faulted = s.faulted := rfl
@[simp] theorem State.markRefused_refused : (s.markRefused).refused = true := rfl
@[simp] theorem State.markRefused_inputs : (s.markRefused).inputs = s.inputs := rfl
@[simp] theorem State.markRefused_images : (s.markRefused).images = s.images := rfl
@[simp] theorem State.markRefused_readResult : (s.markRefused).readResult = s.readResult := rfl
@[simp] theorem State.markRefused_draws : (s.markRefused).draws = s.draws := rfl

/-! ### setRamEnable -/

@[simp] theorem State.setRamEnable_config (b : Bool) : (s.setRamEnable b).config = s.config := rfl
@[simp] theorem State.setRamEnable_regs (b : Bool) : (s.setRamEnable b).regs = s.regs := rfl
@[simp] theorem State.setRamEnable_registersActive (b : Bool) : (s.setRamEnable b).registersActive = s.registersActive := rfl
@[simp] theorem State.setRamEnable_ramEnable (b : Bool) : (s.setRamEnable b).ramEnable = b := rfl
@[simp] theorem State.setRamEnable_ramBankSel (b : Bool) : (s.setRamEnable b).ramBankSel = s.ramBankSel := rfl
@[simp] theorem State.setRamEnable_directRamMap (b : Bool) : (s.setRamEnable b).directRamMap = s.directRamMap := rfl
@[simp] theorem State.setRamEnable_dirty (b : Bool) : (s.setRamEnable b).dirty = s.dirty := rfl
@[simp] theorem State.setRamEnable_sram (b : Bool) : (s.setRamEnable b).sram = s.sram := rfl
@[simp] theorem State.setRamEnable_hist (b : Bool) : (s.setRamEnable b).hist = s.hist := rfl
@[simp] theorem State.setRamEnable_faulted (b : Bool) : (s.setRamEnable b).faulted = s.faulted := rfl
@[simp] theorem State.setRamEnable_refused (b : Bool) : (s.setRamEnable b).refused = s.refused := rfl
@[simp] theorem State.setRamEnable_inputs (b : Bool) : (s.setRamEnable b).inputs = s.inputs := rfl
@[simp] theorem State.setRamEnable_images (b : Bool) : (s.setRamEnable b).images = s.images := rfl
@[simp] theorem State.setRamEnable_readResult (b : Bool) : (s.setRamEnable b).readResult = s.readResult := rfl
@[simp] theorem State.setRamEnable_draws (b : Bool) : (s.setRamEnable b).draws = s.draws := rfl

/-! ### enterRamMode -/

@[simp] theorem State.enterRamMode_config (n : BitVec 4) : (s.enterRamMode n).config = s.config := rfl
@[simp] theorem State.enterRamMode_regs (n : BitVec 4) : (s.enterRamMode n).regs = s.regs := rfl
@[simp] theorem State.enterRamMode_registersActive (n : BitVec 4) : (s.enterRamMode n).registersActive = false := rfl
@[simp] theorem State.enterRamMode_ramEnable (n : BitVec 4) : (s.enterRamMode n).ramEnable = s.ramEnable := rfl
@[simp] theorem State.enterRamMode_ramBankSel (n : BitVec 4) : (s.enterRamMode n).ramBankSel = n := rfl
@[simp] theorem State.enterRamMode_directRamMap (n : BitVec 4) : (s.enterRamMode n).directRamMap = true := rfl
@[simp] theorem State.enterRamMode_dirty (n : BitVec 4) : (s.enterRamMode n).dirty = s.dirty := rfl
@[simp] theorem State.enterRamMode_sram (n : BitVec 4) : (s.enterRamMode n).sram = s.sram := rfl
@[simp] theorem State.enterRamMode_hist (n : BitVec 4) : (s.enterRamMode n).hist = s.hist := rfl
@[simp] theorem State.enterRamMode_faulted (n : BitVec 4) : (s.enterRamMode n).faulted = s.faulted := rfl
@[simp] theorem State.enterRamMode_refused (n : BitVec 4) : (s.enterRamMode n).refused = s.refused := rfl
@[simp] theorem State.enterRamMode_inputs (n : BitVec 4) : (s.enterRamMode n).inputs = s.inputs := rfl
@[simp] theorem State.enterRamMode_images (n : BitVec 4) : (s.enterRamMode n).images = s.images := rfl
@[simp] theorem State.enterRamMode_readResult (n : BitVec 4) : (s.enterRamMode n).readResult = s.readResult := rfl
@[simp] theorem State.enterRamMode_draws (n : BitVec 4) : (s.enterRamMode n).draws = s.draws := rfl

/-! ### enterRegisterMode -/

@[simp] theorem State.enterRegisterMode_config : (s.enterRegisterMode).config = s.config := rfl
@[simp] theorem State.enterRegisterMode_regs : (s.enterRegisterMode).regs = s.regs := rfl
@[simp] theorem State.enterRegisterMode_registersActive : (s.enterRegisterMode).registersActive = true := rfl
@[simp] theorem State.enterRegisterMode_ramEnable : (s.enterRegisterMode).ramEnable = s.ramEnable := rfl
@[simp] theorem State.enterRegisterMode_ramBankSel : (s.enterRegisterMode).ramBankSel = s.ramBankSel := rfl
@[simp] theorem State.enterRegisterMode_directRamMap : (s.enterRegisterMode).directRamMap = false := rfl
@[simp] theorem State.enterRegisterMode_dirty : (s.enterRegisterMode).dirty = s.dirty := rfl
@[simp] theorem State.enterRegisterMode_sram : (s.enterRegisterMode).sram = s.sram := rfl
@[simp] theorem State.enterRegisterMode_hist : (s.enterRegisterMode).hist = s.hist := rfl
@[simp] theorem State.enterRegisterMode_faulted : (s.enterRegisterMode).faulted = s.faulted := rfl
@[simp] theorem State.enterRegisterMode_refused : (s.enterRegisterMode).refused = s.refused := rfl
@[simp] theorem State.enterRegisterMode_inputs : (s.enterRegisterMode).inputs = s.inputs := rfl
@[simp] theorem State.enterRegisterMode_images : (s.enterRegisterMode).images = s.images := rfl
@[simp] theorem State.enterRegisterMode_readResult : (s.enterRegisterMode).readResult = s.readResult := rfl
@[simp] theorem State.enterRegisterMode_draws : (s.enterRegisterMode).draws = s.draws := rfl

/-! ### setDirty -/

@[simp] theorem State.setDirty_config (b : Bool) : (s.setDirty b).config = s.config := rfl
@[simp] theorem State.setDirty_regs (b : Bool) : (s.setDirty b).regs = s.regs := rfl
@[simp] theorem State.setDirty_registersActive (b : Bool) : (s.setDirty b).registersActive = s.registersActive := rfl
@[simp] theorem State.setDirty_ramEnable (b : Bool) : (s.setDirty b).ramEnable = s.ramEnable := rfl
@[simp] theorem State.setDirty_ramBankSel (b : Bool) : (s.setDirty b).ramBankSel = s.ramBankSel := rfl
@[simp] theorem State.setDirty_directRamMap (b : Bool) : (s.setDirty b).directRamMap = s.directRamMap := rfl
@[simp] theorem State.setDirty_dirty (b : Bool) : (s.setDirty b).dirty = b := rfl
@[simp] theorem State.setDirty_sram (b : Bool) : (s.setDirty b).sram = s.sram := rfl
@[simp] theorem State.setDirty_hist (b : Bool) : (s.setDirty b).hist = s.hist := rfl
@[simp] theorem State.setDirty_faulted (b : Bool) : (s.setDirty b).faulted = s.faulted := rfl
@[simp] theorem State.setDirty_refused (b : Bool) : (s.setDirty b).refused = s.refused := rfl
@[simp] theorem State.setDirty_inputs (b : Bool) : (s.setDirty b).inputs = s.inputs := rfl
@[simp] theorem State.setDirty_images (b : Bool) : (s.setDirty b).images = s.images := rfl
@[simp] theorem State.setDirty_readResult (b : Bool) : (s.setDirty b).readResult = s.readResult := rfl
@[simp] theorem State.setDirty_draws (b : Bool) : (s.setDirty b).draws = s.draws := rfl

/-! ### setInputs -/

@[simp] theorem State.setInputs_config (ms : List HostMove) : (s.setInputs ms).config = s.config := rfl
@[simp] theorem State.setInputs_regs (ms : List HostMove) : (s.setInputs ms).regs = s.regs := rfl
@[simp] theorem State.setInputs_registersActive (ms : List HostMove) : (s.setInputs ms).registersActive = s.registersActive := rfl
@[simp] theorem State.setInputs_ramEnable (ms : List HostMove) : (s.setInputs ms).ramEnable = s.ramEnable := rfl
@[simp] theorem State.setInputs_ramBankSel (ms : List HostMove) : (s.setInputs ms).ramBankSel = s.ramBankSel := rfl
@[simp] theorem State.setInputs_directRamMap (ms : List HostMove) : (s.setInputs ms).directRamMap = s.directRamMap := rfl
@[simp] theorem State.setInputs_dirty (ms : List HostMove) : (s.setInputs ms).dirty = s.dirty := rfl
@[simp] theorem State.setInputs_sram (ms : List HostMove) : (s.setInputs ms).sram = s.sram := rfl
@[simp] theorem State.setInputs_hist (ms : List HostMove) : (s.setInputs ms).hist = s.hist := rfl
@[simp] theorem State.setInputs_faulted (ms : List HostMove) : (s.setInputs ms).faulted = s.faulted := rfl
@[simp] theorem State.setInputs_refused (ms : List HostMove) : (s.setInputs ms).refused = s.refused := rfl
@[simp] theorem State.setInputs_inputs (ms : List HostMove) : (s.setInputs ms).inputs = ms := rfl
@[simp] theorem State.setInputs_images (ms : List HostMove) : (s.setInputs ms).images = s.images := rfl
@[simp] theorem State.setInputs_readResult (ms : List HostMove) : (s.setInputs ms).readResult = s.readResult := rfl
@[simp] theorem State.setInputs_draws (ms : List HostMove) : (s.setInputs ms).draws = s.draws := rfl

end Sys2Proof.Machine
end

