-- ==== Sys2Proof/Laws/Capture.lean ====
section
/-! SUPPORT. What the shared operations answer: one lemma each that says everything a capture, a host store, a host
follow-up, a transaction and a step can do where they answer a next state. -/

namespace Sys2Proof.Machine

variable {s t : State} {f : Frame}

@[simp] theorem andThen_next {s : State} {k : State → Result} : andThen (.next s) k = k s := rfl

theorem andThen_eq_next {r : Result} {k : State → Result} :
    andThen r k = .next t ↔ ∃ u, r = .next u ∧ k u = .next t := by
  cases r <;> simp [andThen]

@[simp] theorem refuse_ne_next {q : State → Refusal} : refuse q s = .next t ↔ False := by simp [refuse]

@[simp] theorem raiseFault_ne_next {x y : Nat} {l : Byte} : raiseFault x y l s = .next t ↔ False := by simp [raiseFault]

/-- A loop that ends in a next state has packed every pixel (R143). -/
theorem packFrame_next (h : packFrame f s = .next t) :
    ∃ m, packPixels (pixelCode s f) pixelOrder s.sram = (m, none) ∧ t = s.setSram m := by
  unfold packFrame at h
  split at h
  · exact ⟨_, by assumption, by simpa using h.symm⟩
  · simp at h

/-- What a capture answers on a zeroed buffer: an unsupported format (R146), or the pixel loop's answer. -/
theorem captureZeroed_next (h : captureZeroed f s = .next t) :
    (f.fmt ∉ s.config.formats ∧ t = s.emit (.diag .unsupportedFormat)) ∨
      (f.fmt ∈ s.config.formats ∧ covers f = true ∧ packFrame f s = .next t) := by
  unfold captureZeroed at h
  split at h
  · rename_i hfmt
    exact .inl ⟨by simpa using hfmt, by simpa using h.symm⟩
  · rename_i hfmt
    split at h
    · simp at h
    · rename_i hcov
      exact .inr ⟨by simpa using hfmt, by simpa using hcov, h⟩

/-- A capture of a frame goes on only with a RAM that holds the output buffer, which it zeroes first (R142, R205). -/
theorem captureFrame_next (h : captureFrame f s = .next t) :
    s.config.ramPresent = true ∧ 0xF00 ≤ s.config.ramBytes ∧
      captureZeroed f (s.setSram (zeroBuffer s.sram)) = .next t := by
  unfold captureFrame at h
  split at h
  · simp at h
  · split at h
    · simp at h
    · rename_i hp hb
      simp only [outBase_eq, outSize_eq] at hp hb
      exact ⟨by simpa using hp, by omega, h⟩

/-- What a capture answers: no frame (R145), or what the capture of the frame answers. -/
theorem capture_next (h : capture s = .next t) :
    (s.requestedImage = none ∧ t = s.afterRequest) ∨
      ∃ f, s.requestedImage = some f ∧ captureFrame f s.afterRequest = .next t := by
  unfold capture at h
  split at h
  · exact .inl ⟨by assumption, by simpa using h.symm⟩
  · exact .inr ⟨_, by assumption, h⟩

/-- What a capture of a frame leaves: the zeroed buffer, or the packed picture; the rest of the state as it was but for
the diagnostic (R140, R142, R146). -/
theorem captureFrame_cases (h : captureFrame f s = .next t) :
    0xF00 ≤ s.config.ramBytes ∧
      ((f.fmt ∉ s.config.formats ∧ t = (s.setSram (zeroBuffer s.sram)).emit (.diag .unsupportedFormat)) ∨
        ∃ m codeOf, packPixels codeOf pixelOrder (zeroBuffer s.sram) = (m, none) ∧ t = s.setSram m) := by
  obtain ⟨-, hb, h⟩ := captureFrame_next h
  refine ⟨hb, ?_⟩
  rcases captureZeroed_next h with ⟨hf, ht⟩ | ⟨-, -, h⟩
  · exact .inl ⟨hf, ht⟩
  · obtain ⟨m, hm, ht⟩ := packFrame_next h
    exact .inr ⟨m, _, hm, ht⟩

/-- A capture changes nothing but sram, the history and the image source's answers. -/
theorem capture_frame (h : capture s = .next t) :
    t = { s with images := s.images.tail, sram := t.sram, hist := t.hist } := by
  rcases capture_next h with ⟨-, rfl⟩ | ⟨f, -, h⟩
  · rfl
  · rcases captureFrame_cases h with ⟨-, ⟨-, rfl⟩ | ⟨m, _, -, rfl⟩⟩ <;> rfl

/-- A capture keeps the canonical form. -/
theorem capture_wf (h : capture s = .next t) (hm : s.sram.wf = true) : t.sram.wf = true := by
  rcases capture_next h with ⟨-, rfl⟩ | ⟨f, -, h⟩
  · exact hm
  · rcases captureFrame_cases h with ⟨-, ⟨-, rfl⟩ | ⟨m, codeOf, hp, rfl⟩⟩
    · exact zeroBuffer_wf hm
    · have := packPixels_wf (codeOf := codeOf) (ps := pixelOrder) (zeroBuffer_wf hm)
      simp only [State.afterRequest_sram] at hp
      rwa [hp] at this

/-- A capture writes nothing outside sram. -/
theorem capture_within (h : capture s = .next t) (hm : s.sram.within s.config.ramBytes = true) :
    t.sram.within s.config.ramBytes = true := by
  rcases capture_next h with ⟨-, rfl⟩ | ⟨f, -, h⟩
  · exact hm
  · rcases captureFrame_cases h with ⟨hb, ⟨-, rfl⟩ | ⟨m, codeOf, hp, rfl⟩⟩
    · exact zeroBuffer_within hm
    · have := packPixels_within (codeOf := codeOf) (ps := pixelOrder) (zeroBuffer_within hm)
        (fun p hp => (mem_pixelOrder.1 hp).2) hb
      simp only [State.afterRequest_sram] at hp
      rwa [hp] at this

/-- A capture writes no byte outside the output buffer (R53). -/
theorem capture_outside {b : Nat} (h : capture s = .next t) (hm : s.sram.wf = true) (hb : ¬ inBuffer b) :
    t.sram.read b = s.sram.read b := by
  have hz : (zeroBuffer s.sram).read b = s.sram.read b := by rw [read_zeroBuffer hm, if_neg hb]
  rcases capture_next h with ⟨-, rfl⟩ | ⟨f, -, h⟩
  · rfl
  · rcases captureFrame_cases h with ⟨-, ⟨-, rfl⟩ | ⟨m, codeOf, hp, rfl⟩⟩
    · exact hz
    · have := packPixels_outside (codeOf := codeOf) (ps := pixelOrder) (zeroBuffer_wf hm)
        (fun p hp => (mem_pixelOrder.1 hp).2) hb
      simp only [State.afterRequest_sram] at hp
      rw [hp] at this
      exact this.trans hz

/-- A trigger write that answers a next state has captured, set dirty and stored D & 0x06 (R110). -/
theorem execWrCamTrigger_next (ign : BitVec 6) {d : Byte} (h : execWrCamTrigger ign d s = .next t) :
    ∃ u, capture (s.setDirty true) = .next u ∧ t = u.setReg 0 (triggerStored d) := by
  obtain ⟨u, hu, e⟩ := andThen_eq_next.1 h
  exact ⟨u, hu, by simpa using e.symm⟩

/-- A host store that answers has stored one byte that exists (R10). -/
theorem hostStore_next {off : Nat} {v : Byte} (h : hostStore off v s = .next t) :
    s.hasRamByte off = true ∧ t = s.setSram (s.sram.write off v) := by
  unfold hostStore at h
  split at h
  · exact ⟨by assumption, by simpa using h.symm⟩
  · simp at h

/-- What the host's follow-up answers: nothing done, or the store of a window-5 write (D25). -/
theorem hostFollowUp_next {i : Instr} (h : hostFollowUp i s = .next t) :
    t = s ∨ ∃ off d, i = .wrCamIgnored off d ∧ hostStoresWrites s = true ∧
      s.hasRamByte (ramModeOffset s off) = true ∧ t = s.setSram (s.sram.write (ramModeOffset s off) d) := by
  cases i
  case wrCamIgnored off d =>
    simp only [hostFollowUp] at h
    split at h
    · exact .inr ⟨off, d, rfl, by assumption, (hostStore_next h).1, (hostStore_next h).2⟩
    · exact .inl (by simpa using h.symm)
  all_goals exact .inl (by simpa [hostFollowUp] using h.symm)

/-- A transaction that answers has run the decoded instruction, and the host has followed up. -/
theorem runTransaction_next {w : TWord} (h : runTransaction w s = .next t) :
    ∃ u, exec (decode s.registersActive w) s = .next u ∧ hostFollowUp (decode s.registersActive w) u = .next t :=
  andThen_eq_next.1 h

/-- What a step answers: the configuration is admissible, and the block waits or takes the host's oldest move. -/
theorem step_next (h : step s = .next t) :
    configAdmissible s.config = true ∧
    ((s.inputs = [] ∧ t = s) ∨
      ∃ m rest, s.inputs = m :: rest ∧
        ((∃ w, m = .transaction w ∧ runTransaction w (s.setInputs rest) = .next t) ∨
          (m = .clearDirty ∧ t = (s.setInputs rest).setDirty false) ∨
          (∃ off v, m = .storeRam off v ∧ hostStore off v (s.setInputs rest) = .next t))) := by
  unfold step at h
  split at h
  · simp at h
  · rename_i hc
    refine ⟨by simpa using hc, ?_⟩
    split at h
    · exact .inl ⟨by assumption, by simpa using h.symm⟩
    · rename_i m rest hm
      refine .inr ⟨m, rest, hm, ?_⟩
      cases m with
      | transaction w => exact .inl ⟨w, rfl, h⟩
      | clearDirty => exact .inr (.inl ⟨rfl, by simpa [runMove] using h.symm⟩)
      | storeRam off v => exact .inr (.inr ⟨off, v, rfl, h⟩)

end Sys2Proof.Machine
end

