-- ==== Sys2Proof/Laws/ClosedForm.lean ====
section
/-! SUPPORT. The closed form of the output buffer (44_tile_packer.md R187), bit by bit, and the pixel loop's relation to
it on a buffer that reads 0. -/

namespace Sys2Proof.Machine

/-- Bits of a sum of distinct powers of two. -/
theorem sum_bits (g : Nat → Nat) (hg : ∀ b, g b ≤ 1) (n : Nat) :
    ((List.range n).map fun b => g b <<< b).sum < 2 ^ n ∧
    ∀ i, ((List.range n).map fun b => g b <<< b).sum.testBit i = decide (i < n ∧ g i = 1) := by
  induction n with
  | zero => simp
  | succ n ih =>
    have hs : ((List.range (n + 1)).map fun b => g b <<< b).sum =
        2 ^ n * g n + ((List.range n).map fun b => g b <<< b).sum := by
      rw [List.range_succ, List.map_append, List.sum_append]
      simp [Nat.shiftLeft_eq, Nat.add_comm, Nat.mul_comm]
    have hn : g n = 0 ∨ g n = 1 := by have := hg n; omega
    rw [hs]
    refine ⟨?_, fun i => ?_⟩
    · rcases hn with h | h <;> rw [h, Nat.pow_succ] <;> omega
    · rw [Nat.testBit_two_pow_mul_add _ ih.1]
      split
      · rename_i hlt
        rw [ih.2]
        exact decide_eq_decide.2 ⟨fun ⟨_, b⟩ => ⟨by omega, b⟩, fun ⟨_, b⟩ => ⟨hlt, b⟩⟩
      · by_cases hin : i = n
        · subst hin; rcases hn with h | h <;> simp [h]
        · rcases hn with h | h
          · simp [h, show ¬ i < n + 1 by omega]
          · obtain ⟨k, hk⟩ : ∃ k, i - n = k + 1 := ⟨i - n - 1, by omega⟩
            simp [h, hk, Nat.testBit_succ, show ¬ i < n + 1 by omega]

theorem planeBit_le {p : Nat} {c : Code} : planeBit p c ≤ 1 := by
  simp only [planeBit, Nat.and_one_is_mod]; omega

theorem planeBit_c000 {p : Nat} : planeBit p .c000 = 0 := by simp [planeBit, codePattern]

/-- Bit i of byte t is the plane bit of pixel (8 tx + 7 - i, 8 ty + r) (R187, in division and remainder). -/
theorem closedFormByte_bit (code : Nat → Nat → Code) (t : Nat) {i : Nat} (hi : i < 8) :
    (closedFormByte code t).getLsbD i =
      decide (planeBit (t % 2) (code (8 * (t / 16 % 16) + 7 - i) (8 * (t / 16 / 16) + t / 2 % 8)) = 1) := by
  have e1 : t >>> 4 = t / 16 := Nat.shiftRight_eq_div_pow t 4
  have e2 : (t >>> 4) >>> 4 = t / 16 / 16 := by rw [e1, Nat.shiftRight_eq_div_pow]
  have e3 : (t >>> 4) &&& 15 = t / 16 % 16 := by rw [e1]; exact Nat.and_two_pow_sub_one_eq_mod _ 4
  have e4 : (t >>> 1) &&& 7 = t / 2 % 8 := by
    rw [Nat.shiftRight_eq_div_pow]; exact Nat.and_two_pow_sub_one_eq_mod _ 3
  have h := (sum_bits (fun b => planeBit (t % 2) (code (8 * (t / 16 % 16) + 7 - b) (8 * (t / 16 / 16) + t / 2 % 8)))
    (fun _ => planeBit_le) 8).2 i
  unfold closedFormByte
  simp only [e2, e3, e4, Nat.and_one_is_mod, BitVec.getLsbD_ofNat, h, hi]
  simp

/-- The one pixel whose code has bit i of byte t of the buffer: the inverse of R180 and R182 (R186). -/
theorem pixel_of_bit {t i x y p : Nat} (hi : i < 8) (hx : x < 128) (hy : y < 112) (hp : p < 2) :
    (i = pixelShift x ∧ 0x100 + t = pixelAddr x y + p) ↔
      (t % 2 = p ∧ x = 8 * (t / 16 % 16) + 7 - i ∧ y = 8 * (t / 16 / 16) + t / 2 % 8) := by
  simp only [pixelShift, pixelAddr, tileOffset, outBase_eq]
  omega

variable {m : Memory} {t : Nat} {code : Nat → Nat → Code} {codeOf : Nat → Nat → Except Byte Code} {ps : List (Nat × Nat)}

/-- A loop over pixels of the frame, from a buffer that reads 0, leaves the closed form of their codes, every other pixel
counting as 0x000. -/
theorem packPixels_closedForm_of_mem (h : m.wf = true) (hz : ∀ a, inBuffer a → m.read a = 0x00#8)
    (hps : ∀ p ∈ ps, p ∈ pixelOrder) (hc : ∀ p ∈ ps, codeOf p.1 p.2 = .ok (code p.1 p.2)) (ht : t < 0xE00) :
    (packPixels codeOf ps m).1.read (0x100 + t) =
      closedFormByte (fun x y => if (x, y) ∈ ps then code x y else .c000) t := by
  apply BitVec.eq_of_getLsbD_eq
  intro i hi
  rw [closedFormByte_bit _ t hi, Bool.eq_iff_iff, packPixels_bit h hi hc, hz _ (by omega)]
  simp only [BitVec.getLsbD_zero, Bool.false_eq_true, false_or, decide_eq_true_eq]
  constructor
  · rintro ⟨⟨x, y⟩, hp, hs, ⟨ha, hb⟩ | ⟨ha, hb⟩⟩ <;> obtain ⟨hx, hy⟩ := mem_pixelOrder.1 (hps _ hp) <;>
      simp only at hs ha hb hx hy
    · obtain ⟨h0, rfl, rfl⟩ := (pixel_of_bit hi hx hy (by omega : 0 < 2)).1 ⟨hs, by omega⟩
      rwa [if_pos hp, h0]
    · obtain ⟨h0, rfl, rfl⟩ := (pixel_of_bit hi hx hy (by omega : 1 < 2)).1 ⟨hs, by omega⟩
      rwa [if_pos hp, h0]
  · intro hb
    by_cases hp : (8 * (t / 16 % 16) + 7 - i, 8 * (t / 16 / 16) + t / 2 % 8) ∈ ps
    · obtain ⟨hx, hy⟩ := mem_pixelOrder.1 (hps _ hp)
      rw [if_pos hp] at hb
      refine ⟨_, hp, ?_⟩
      rcases (show t % 2 = 0 ∨ t % 2 = 1 by omega) with h0 | h0
      · obtain ⟨h1, h2⟩ := (pixel_of_bit hi hx hy (by omega : 0 < 2)).2 ⟨h0, rfl, rfl⟩
        exact ⟨h1, .inl ⟨by simpa using h2, by rwa [h0] at hb⟩⟩
      · obtain ⟨h1, h2⟩ := (pixel_of_bit hi hx hy (by omega : 1 < 2)).2 ⟨h0, rfl, rfl⟩
        exact ⟨h1, .inr ⟨h2, by rwa [h0] at hb⟩⟩
    · rw [if_neg hp, planeBit_c000] at hb
      omega

/-- The whole loop, from a buffer that reads 0, leaves the closed form of all codes (R150, R187). -/
theorem packPixels_closedForm (h : m.wf = true) (hz : ∀ a, inBuffer a → m.read a = 0x00#8)
    (hc : ∀ p ∈ pixelOrder, codeOf p.1 p.2 = .ok (code p.1 p.2)) (ht : t < 0xE00) :
    (packPixels codeOf pixelOrder m).1.read (0x100 + t) = closedFormByte code t := by
  rw [packPixels_closedForm_of_mem h hz (fun _ hp => hp) hc ht]
  apply BitVec.eq_of_getLsbD_eq
  intro i hi
  rw [closedFormByte_bit _ t hi, closedFormByte_bit _ t hi, if_pos (mem_pixelOrder.2 ⟨by simp only; omega, by simp only; omega⟩)]

end Sys2Proof.Machine
end

