-- ==== Sys2Proof/Laws/Encoding.lean ====
section
/-! SUPPORT. The bits and fields of a transaction word (R70), and what fitting a row of the decode table says of them. -/

namespace Sys2Proof

variable {rw : Bool} {a : Word16} {d : Byte} {t u : TWord}

/-- The bits of T: D below, then A, then RW (R70). -/
theorem busWord_bit {i : Nat} (h : i < 25) : (busWord rw a d).getLsbD i =
    if i < 8 then d.getLsbD i else if i < 24 then a.getLsbD (i - 8) else rw := by
  have h1 := BitVec.getLsbD_append (x := BitVec.ofBool rw ++ a) (y := d) (i := i)
  have h2 := BitVec.getLsbD_append (x := BitVec.ofBool rw) (y := a) (i := i - 8)
  refine h1.trans ?_
  rw [h2]
  by_cases h8 : i < 8
  · simp [h8]
  · by_cases h24 : i < 24
    · simp [h8, h24, show i - 8 < 16 by omega]
    · obtain rfl : i = 24 := by omega
      simp

/-- Any field of T that lies inside A is that field of the address. -/
theorem busWord_extract {lo n : Nat} (h : lo + n ≤ 16) :
    (busWord rw a d).extractLsb' (8 + lo) n = a.extractLsb' lo n := by
  apply BitVec.eq_of_getLsbD_eq
  intro i hi
  simp only [BitVec.getLsbD_extractLsb', busWord_bit (show 8 + lo + i < 25 by omega)]
  simp [hi, show ¬ 8 + lo + i < 8 by omega, show 8 + lo + i < 24 by omega, show 8 + lo + i - 8 = lo + i by omega]

@[simp] theorem fieldRw_busWord : fieldRw (busWord rw a d) = rw := by
  rw [fieldRw, busWord_bit (by omega)]
  simp

@[simp] theorem fieldA_busWord : fieldA (busWord rw a d) = a := by
  rw [fieldA, busWord_extract (lo := 0) (by omega)]
  simp

@[simp] theorem fieldD_busWord : fieldD (busWord rw a d) = d := by
  apply BitVec.eq_of_getLsbD_eq
  intro i hi
  simp only [fieldD, BitVec.getLsbD_extractLsb', busWord_bit (show 0 + i < 25 by omega)]
  simp [hi]

@[simp] theorem fieldWin_busWord : fieldWin (busWord rw a d) = a.extractLsb' 13 3 :=
  busWord_extract (lo := 13) (n := 3) (by omega)

@[simp] theorem fieldOff_busWord : fieldOff (busWord rw a d) = a.extractLsb' 0 13 :=
  busWord_extract (lo := 0) (n := 13) (by omega)

@[simp] theorem fieldIgn_busWord : fieldIgn (busWord rw a d) = a.extractLsb' 7 6 :=
  busWord_extract (lo := 7) (n := 6) (by omega)

@[simp] theorem fieldM7_busWord : fieldM7 (busWord rw a d) = a.extractLsb' 0 7 :=
  busWord_extract (lo := 0) (n := 7) (by omega)

/-- T is built from its fields (R70). -/
theorem busWord_fields : busWord (fieldRw t) (fieldA t) (fieldD t) = t := by
  apply BitVec.eq_of_getLsbD_eq
  intro i hi
  rw [busWord_bit hi]
  split
  · simp [fieldD, *]
  · split
    · simp [fieldA, show i - 8 < 16 by omega, show 8 + (i - 8) = i by omega]
    · obtain rfl : i = 24 := by omega
      rfl

/-- Two words agree where their fields do (R70). -/
theorem tword_ext (h1 : fieldRw t = fieldRw u) (h2 : fieldA t = fieldA u) (h3 : fieldD t = fieldD u) : t = u := by
  rw [← busWord_fields (t := t), ← busWord_fields (t := u), h1, h2, h3]

/-- Fitting a row (R74): every bit the mask tests has the pattern's value, and the pattern is inside the mask. -/
theorem and_eq_iff {mask pattern : TWord} : t &&& mask = pattern ↔
    ∀ i < 25, (t.getLsbD i && mask.getLsbD i) = pattern.getLsbD i := by
  constructor
  · rintro h i -
    rw [← h, BitVec.getLsbD_and]
  · intro h
    apply BitVec.eq_of_getLsbD_eq
    intro i hi
    rw [BitVec.getLsbD_and]
    exact h i hi

/-- The mask of the rows that test only RW and WIN (R74). -/
theorem window_fit {rw : Bool} {w : BitVec 3} :
    t &&& 0x1E00000#25 = busWord rw (w ++ 0#13) 0x00#8 ↔ fieldRw t = rw ∧ fieldWin t = w := by
  constructor
  · intro h
    rw [and_eq_iff] at h
    have hb : ∀ i, 21 ≤ i → i < 25 → t.getLsbD i = if i < 24 then w.getLsbD (i - 21) else rw := by
      intro i h1 h2
      have := h i h2
      rw [busWord_bit h2, BitVec.getLsbD_append] at this
      interval_cases i <;> simpa using this
    refine ⟨by simpa [fieldRw] using hb 24 (by omega) (by omega), ?_⟩
    apply BitVec.eq_of_getLsbD_eq
    intro i hi
    have := hb (21 + i) (by omega) (by omega)
    simpa [fieldWin, hi, show 21 + i < 24 by omega, show 21 + i - 21 = i by omega] using this
  · rintro ⟨rfl, rfl⟩
    rw [and_eq_iff]
    intro i hi
    rw [busWord_bit hi, BitVec.getLsbD_append]
    interval_cases i <;> simp [fieldRw, fieldWin]

end Sys2Proof
end

