-- ==== Sys2Proof/Laws/Ops.lean ====
section
/-! SUPPORT. What the shared operations give on each of their conditions, for running an instruction forwards. -/

namespace Sys2Proof.Machine

variable {s : State} {f : Frame}

/-- The conditions of R208, in the spec's numbers. -/
theorem configAdmissible_iff {c : Config} : configAdmissible c = true ↔
    54 ≤ c.regCount ∧ c.regCount ≤ 128 ∧ c.width = 128 ∧ c.height = 112 ∧ 0xF00 ≤ c.ramBytes ∧ Format.l8 ∈ c.formats := by
  simp only [configAdmissible, Bool.and_eq_true, decide_eq_true_eq, and_assoc, List.contains_iff_mem]
  rfl

/-- COVERS in the spec's numbers (R141). -/
theorem covers_iff : covers f = true ↔ 128 ≤ f.stride ∧ 111 * f.stride + 128 ≤ f.data.length := by
  simp only [covers, Bool.and_eq_true, decide_eq_true_eq]
  rfl

theorem Inv.bufferFits (h : Inv s) : 0xF00 ≤ s.config.ramBytes := (configAdmissible_iff.1 h.1).2.2.2.2.1

theorem Inv.regsFit (h : Inv s) : 54 ≤ s.regs.length := h.2.1 ▸ (configAdmissible_iff.1 h.1).1

theorem Inv.sramWf (h : Inv s) : s.sram.wf = true := h.2.2.2.2.2.1

@[simp] theorem requestedImage_setDirty {b : Bool} : (s.setDirty b).requestedImage = s.requestedImage := rfl

theorem capture_none (h : s.requestedImage = none) : capture s = .next s.afterRequest := by
  unfold capture; rw [h]

theorem capture_some (h : s.requestedImage = some f) : capture s = captureFrame f s.afterRequest := by
  unfold capture; rw [h]

theorem captureFrame_noRam (h : s.config.ramPresent = false) : captureFrame f s = refuse .noRam s := by
  unfold captureFrame; rw [if_pos h]

theorem captureFrame_withRam (h : s.config.ramPresent = true) (hb : 0xF00 ≤ s.config.ramBytes) :
    captureFrame f s = captureZeroed f (s.setSram (zeroBuffer s.sram)) := by
  unfold captureFrame
  rw [if_neg (by simp [h]), if_neg (by rw [outBase_eq, outSize_eq]; omega)]

theorem captureZeroed_unsupported (h : f.fmt ∉ s.config.formats) :
    captureZeroed f s = .next (s.emit (.diag .unsupportedFormat)) := by
  unfold captureZeroed; rw [if_pos (by simpa using h)]

theorem captureZeroed_short (h : f.fmt ∈ s.config.formats) (hc : covers f = false) :
    captureZeroed f s = refuse .shortFrame s := by
  unfold captureZeroed; rw [if_neg (by simpa using h), if_pos hc]

theorem captureZeroed_ready (h : f.fmt ∈ s.config.formats) (hc : covers f = true) :
    captureZeroed f s = packFrame f s := by
  unfold captureZeroed; rw [if_neg (by simpa using h), if_neg (by simp [hc])]

/-- A trigger write whose frame is ready runs the pixel loop on the zeroed buffer (R110, R140). -/
theorem capture_ready (h : frameReady s f) (hb : 0xF00 ≤ s.config.ramBytes) :
    capture s = packFrame f (s.afterRequest.setSram (zeroBuffer s.sram)) := by
  have hr : s.afterRequest.config.ramPresent = true := h.2.1
  rw [capture_some h.1, captureFrame_withRam hr hb]
  exact captureZeroed_ready h.2.2.1 h.2.2.2

theorem packFrame_ok {m : Memory} (h : packPixels (pixelCode s f) pixelOrder s.sram = (m, none)) :
    packFrame f s = .next (s.setSram m) := by
  unfold packFrame; rw [h]

theorem packFrame_fault {m : Memory} {x y : Nat} {l : Byte}
    (h : packPixels (pixelCode s f) pixelOrder s.sram = (m, some (x, y, l))) :
    packFrame f s = raiseFault x y l (s.setSram m) := by
  unfold packFrame; rw [h]

end Sys2Proof.Machine
end

