-- ==== Sys2Proof/Laws/PerInstr.lean ====
section
/-! SUPPORT. The law family RowFit: the word of a well-formed instruction fits its own row of the decode table (R74). -/

namespace Sys2Proof.Laws.RowFit

/-- The encoding of `i` has, under the mask of its row of R74, the row's match value. -/
def Statement (i : Instr) : Prop :=
  i.wellFormed = true → ∃ r ∈ opcodeRows, r.prio = i.row ∧ encode i &&& r.mask = r.pattern

/-- The way every constructor's lemma goes: name the row, then compare the 25 bits. -/
theorem of_row {i : Instr} {r : OpcodeRow} (hr : r ∈ opcodeRows) (hp : r.prio = i.row)
    (h : i.wellFormed = true → ∀ k < 25, ((encode i).getLsbD k && r.mask.getLsbD k) = r.pattern.getLsbD k) :
    Statement i := fun hw => ⟨r, hr, hp, and_eq_iff.2 (h hw)⟩

theorem wrRamDisable (off : BitVec 13) : Statement (.wrRamDisable off) := by
  refine of_row (r := ⟨1, 0x1E000FF, 0x1000000, none⟩) (by decide) rfl fun _ k hk => ?_
  rw [encode, busWord_bit hk]
  simp only [BitVec.getLsbD_append]
  interval_cases k <;> simp

theorem wrRamEnable (off : BitVec 13) : Statement (.wrRamEnable off) := by
  refine of_row (r := ⟨2, 0x1E000FF, 0x100000A, none⟩) (by decide) rfl fun _ k hk => ?_
  rw [encode, busWord_bit hk]
  simp only [BitVec.getLsbD_append]
  interval_cases k <;> simp

theorem wrRamCtlIgnored (off : BitVec 13) (d : BitVec 8) : Statement (.wrRamCtlIgnored off d) := by
  refine of_row (r := ⟨3, 0x1E00000, 0x1000000, none⟩) (by decide) rfl fun _ k hk => ?_
  rw [encode, busWord_bit hk]
  simp only [BitVec.getLsbD_append]
  interval_cases k <;> simp

theorem wrRomBank (off : BitVec 13) (d : BitVec 8) : Statement (.wrRomBank off d) := by
  refine of_row (r := ⟨4, 0x1E00000, 0x1200000, none⟩) (by decide) rfl fun _ k hk => ?_
  rw [encode, busWord_bit hk]
  simp only [BitVec.getLsbD_append]
  interval_cases k <;> simp

theorem wrRamBank (off : BitVec 13) (bank : BitVec 4) : Statement (.wrRamBank off bank) := by
  refine of_row (r := ⟨5, 0x1E000F0, 0x1400000, none⟩) (by decide) rfl fun _ k hk => ?_
  rw [encode, busWord_bit hk]
  simp only [BitVec.getLsbD_append]
  interval_cases k <;> simp

theorem wrRegMode (off : BitVec 13) (d : BitVec 8) : Statement (.wrRegMode off d) := by
  refine of_row (r := ⟨6, 0x1E00000, 0x1400000, none⟩) (by decide) rfl fun _ k hk => ?_
  rw [encode, busWord_bit hk]
  simp only [BitVec.getLsbD_append]
  interval_cases k <;> simp

theorem wrNopW3 (off : BitVec 13) (d : BitVec 8) : Statement (.wrNopW3 off d) := by
  refine of_row (r := ⟨7, 0x1E00000, 0x1600000, none⟩) (by decide) rfl fun _ k hk => ?_
  rw [encode, busWord_bit hk]
  simp only [BitVec.getLsbD_append]
  interval_cases k <;> simp

theorem wrNopW4 (off : BitVec 13) (d : BitVec 8) : Statement (.wrNopW4 off d) := by
  refine of_row (r := ⟨8, 0x1E00000, 0x1800000, none⟩) (by decide) rfl fun _ k hk => ?_
  rw [encode, busWord_bit hk]
  simp only [BitVec.getLsbD_append]
  interval_cases k <;> simp

theorem wrCamIgnored (off : BitVec 13) (d : BitVec 8) : Statement (.wrCamIgnored off d) := by
  refine of_row (r := ⟨9, 0x1E00000, 0x1A00000, some false⟩) (by decide) rfl fun _ k hk => ?_
  rw [encode, busWord_bit hk]
  simp only [BitVec.getLsbD_append]
  interval_cases k <;> simp

theorem wrCamTrigger (ign : BitVec 6) (d : BitVec 8) : Statement (.wrCamTrigger ign d) := by
  refine of_row (r := ⟨10, 0x1E07F01, 0x1A00001, some true⟩) (by decide) rfl fun hw k hk => ?_
  have h0 : d.getLsbD 0 = true := hw
  rw [encode, busWord_bit hk]
  simp only [BitVec.getLsbD_append]
  interval_cases k <;> simp [h0]

theorem wrCamReg (ign : BitVec 6) (r : BitVec 7) (d : BitVec 8) : Statement (.wrCamReg ign r d) := by
  refine of_row (r := ⟨11, 0x1E00000, 0x1A00000, some true⟩) (by decide) rfl fun _ k hk => ?_
  rw [encode, busWord_bit hk]
  simp only [BitVec.getLsbD_append]
  interval_cases k <;> simp

theorem wrNopW6 (off : BitVec 13) (d : BitVec 8) : Statement (.wrNopW6 off d) := by
  refine of_row (r := ⟨12, 0x1E00000, 0x1C00000, none⟩) (by decide) rfl fun _ k hk => ?_
  rw [encode, busWord_bit hk]
  simp only [BitVec.getLsbD_append]
  interval_cases k <;> simp

theorem wrNopW7 (off : BitVec 13) (d : BitVec 8) : Statement (.wrNopW7 off d) := by
  refine of_row (r := ⟨13, 0x1E00000, 0x1E00000, none⟩) (by decide) rfl fun _ k hk => ?_
  rw [encode, busWord_bit hk]
  simp only [BitVec.getLsbD_append]
  interval_cases k <;> simp

theorem rdCamRam (off : BitVec 13) : Statement (.rdCamRam off) := by
  refine of_row (r := ⟨14, 0x1E00000, 0x0A00000, some false⟩) (by decide) rfl fun _ k hk => ?_
  rw [encode, busWord_bit hk]
  simp only [BitVec.getLsbD_append]
  interval_cases k <;> simp

theorem rdCamCtrl (ign : BitVec 6) : Statement (.rdCamCtrl ign) := by
  refine of_row (r := ⟨15, 0x1E07F00, 0x0A00000, some true⟩) (by decide) rfl fun _ k hk => ?_
  rw [encode, busWord_bit hk]
  simp only [BitVec.getLsbD_append]
  interval_cases k <;> simp

theorem rdCamZero (ign : BitVec 6) (r : BitVec 7) : Statement (.rdCamZero ign r) := by
  refine of_row (r := ⟨16, 0x1E00000, 0x0A00000, some true⟩) (by decide) rfl fun _ k hk => ?_
  rw [encode, busWord_bit hk]
  simp only [BitVec.getLsbD_append]
  interval_cases k <;> simp

theorem rdUnroutedLo (a : BitVec 15) : Statement (.rdUnroutedLo a) := by
  refine of_row (r := ⟨17, 0x1800000, 0x0000000, none⟩) (by decide) rfl fun _ k hk => ?_
  rw [encode, busWord_bit hk]
  simp only [BitVec.getLsbD_append]
  interval_cases k <;> simp

theorem rdUnroutedW4 (off : BitVec 13) : Statement (.rdUnroutedW4 off) := by
  refine of_row (r := ⟨18, 0x1E00000, 0x0800000, none⟩) (by decide) rfl fun _ k hk => ?_
  rw [encode, busWord_bit hk]
  simp only [BitVec.getLsbD_append]
  interval_cases k <;> simp

theorem rdUnroutedHi (a : BitVec 14) : Statement (.rdUnroutedHi a) := by
  refine of_row (r := ⟨19, 0x1C00000, 0x0C00000, none⟩) (by decide) rfl fun _ k hk => ?_
  rw [encode, busWord_bit hk]
  simp only [BitVec.getLsbD_append]
  interval_cases k <;> simp

end Sys2Proof.Laws.RowFit
end

