-- ==== Sys2Proof/Tests/Slice0.lean ====
section
/-! SUPPORT. The model's own tests. Words and expected results are those of spec/95_test_vectors.md, or are worked out by
hand from the rule named; the witnesses show that the hypotheses of each obligation can be met. -/

namespace Sys2Proof.Tests

open Sys2Proof.Machine

/-! ### Ill-formed terms are refused by the well-formedness check (R74, R79) -/

theorem test_wf_ramCtl_zero : (Instr.wrRamCtlIgnored 0#13 0x00#8).wellFormed = false := by decide
theorem test_wf_ramCtl_enable : (Instr.wrRamCtlIgnored 0#13 0x0A#8).wellFormed = false := by decide
theorem test_wf_regMode : (Instr.wrRegMode 0#13 0x0F#8).wellFormed = false := by decide
theorem test_wf_trigger : (Instr.wrCamTrigger 0#6 0xFE#8).wellFormed = false := by decide
theorem test_wf_camReg : (Instr.wrCamReg 0#6 0#7 0x01#8).wellFormed = false := by decide
theorem test_wf_camZero : (Instr.rdCamZero 0#6 0#7).wellFormed = false := by decide
theorem test_wf_setReg : (Pseudo.setReg 0#7 0x01#8).wellFormed = false := by decide
theorem test_wf_mode : (Instr.wrCamTrigger 0#6 0x01#8).allowedIn false = false := by decide
theorem test_wf_good : (Instr.wrRamCtlIgnored 0#13 0x1A#8).wellFormed = true ∧
    (Instr.wrRegMode 0#13 0x10#8).wellFormed = true ∧ (Instr.wrCamReg 0#6 0#7 0xFE#8).wellFormed = true := by decide

/-! ### Decoding: words of section 2.1, one or more per constructor -/

theorem test_decode_wrRamDisable : decode false 0x1123400#25 = .wrRamDisable 0x1234#13 := by decide
theorem test_decode_wrRamEnable : decode true 0x100000A#25 = .wrRamEnable 0#13 := by decide
theorem test_decode_wrRamCtlIgnored : decode false 0x100001A#25 = .wrRamCtlIgnored 0#13 0x1A#8 := by decide
theorem test_decode_wrRomBank : decode false 0x1200045#25 = .wrRomBank 0#13 0x45#8 := by decide
theorem test_decode_wrRamBank : decode false 0x140000F#25 = .wrRamBank 0#13 15#4 := by decide
theorem test_decode_wrRegMode : decode false 0x1400013#25 = .wrRegMode 0#13 0x13#8 ∧
    decode false 0x15FFFFF#25 = .wrRegMode 0x1FFF#13 0xFF#8 := by decide
theorem test_decode_wrNopW3 : decode false 0x16000FF#25 = .wrNopW3 0#13 0xFF#8 := by decide
theorem test_decode_wrNopW4 : decode true 0x1800000#25 = .wrNopW4 0#13 0x00#8 := by decide
theorem test_decode_wrCamIgnored : decode false 0x1A00001#25 = .wrCamIgnored 0#13 0x01#8 := by decide
theorem test_decode_wrCamTrigger : decode true 0x1A00001#25 = .wrCamTrigger 0#6 0x01#8 ∧
    decode true 0x1BF80FF#25 = .wrCamTrigger 63#6 0xFF#8 ∧ decode true 0x1A08003#25 = .wrCamTrigger 1#6 0x03#8 := by
  decide
theorem test_decode_wrCamReg : decode true 0x1A00002#25 = .wrCamReg 0#6 0#7 0x02#8 ∧
    decode true 0x1A00101#25 = .wrCamReg 0#6 1#7 0x01#8 ∧ decode true 0x1A07F77#25 = .wrCamReg 0#6 0x7F#7 0x77#8 := by
  decide
theorem test_decode_wrNopW6 : decode false 0x1C0000A#25 = .wrNopW6 0#13 0x0A#8 := by decide
theorem test_decode_wrNopW7 : decode true 0x1FFFF10#25 = .wrNopW7 0x1FFF#13 0x10#8 := by decide
theorem test_decode_rdCamRam : decode false 0x0A12300#25 = .rdCamRam 0x123#13 := by decide
theorem test_decode_rdCamCtrl : decode true 0x0A00000#25 = .rdCamCtrl 0#6 ∧
    decode true 0x0B08000#25 = .rdCamCtrl 33#6 := by decide
theorem test_decode_rdCamZero : decode true 0x0A00200#25 = .rdCamZero 0#6 2#7 := by decide
theorem test_decode_rdUnroutedLo : decode true 0x0000000#25 = .rdUnroutedLo 0#15 ∧
    decode false 0x0600000#25 = .rdUnroutedLo 0x6000#15 := by decide
theorem test_decode_rdUnroutedW4 : decode false 0x0800000#25 = .rdUnroutedW4 0#13 := by decide
theorem test_decode_rdUnroutedHi : decode false 0x0C00000#25 = .rdUnroutedHi 0#14 ∧
    decode true 0x0FFFF00#25 = .rdUnroutedHi 0x3FFF#14 := by decide
theorem test_decode_tooWide : decodeNumber true (2 ^ 25) = .error .wordTooWide := by rfl
theorem test_encode_examples : busWord true 0xA000#16 0x03#8 = 0x1A00003#25 ∧
    busWord false 0xA000#16 0x00#8 = 0x0A00000#25 := by decide
/-- `SHOOT 0x02` is `WR 0xA000, 0x03`, and `RAMRD 0x100` is `RD 0xA100` (programs P1, P4). -/
theorem test_expand : (Pseudo.shoot 0x02#8).expand = 0x1A00003#25 ∧ (Pseudo.ramRd 0x100#13).expand = 0x0A10000#25 := by
  decide

/-! ### One step of each instruction -/

/-- One field of the next state, none where the step ends otherwise. -/
def after {α : Type} (r : Result) (p : State → α) : Option α :=
  match r with
  | .next s => some (p s)
  | .fault _ => none
  | .refused _ => none

/-- Register-active mode, from reset. -/
def regMode : State := { State.reset with registersActive := true, directRamMap := false }

/-- RAM mode with RAM access enabled and bank 3 selected. -/
def bank3 : State := { State.reset with ramEnable := true, ramBankSel := 3#4 }

/-- Reset with another configuration. -/
def withConfig (c : Config) : State := { State.reset with config := c }

/-- Reset with moves of the host waiting. -/
def withMoves (s : State) (ms : List HostMove) : State := { s with inputs := ms }

/-- Reset in register-active mode with answers of the image source waiting. -/
def withImages (c : Config) (fs : List (Option Frame)) : State := { regMode with config := c, images := fs }

/-- A configuration with no backing RAM. -/
def noRam : Config := { Config.default with ramPresent := false }

/-- The host stores window-5 writes; bank 1 starts at 0x1F000 (vector of section 2.4). -/
def highBank : Config := { Config.default with
  hostRamWrite := .store, ramBankBase := Config.default.ramBankBase.set 1 0x1F000 }

theorem test_wrRamDisable : after (exec (.wrRamDisable 0x1FFF#13) bank3) (fun s => (s.ramEnable, s.ramBankSel)) =
    some (false, 3#4) := by decide
theorem test_wrRamEnable : after (exec (.wrRamEnable 0#13) { bank3 with ramEnable := false })
    (fun s => (s.ramEnable, s.hist)) = some (true, [.switchRamBank 3#4]) := by decide
theorem test_wrRamEnable_noRam : after (exec (.wrRamEnable 0#13) (withConfig noRam))
    (fun s => (s.ramEnable, s.hist)) = some (false, []) := by decide
theorem test_wrRamCtlIgnored : after (exec (.wrRamCtlIgnored 0#13 0x0B#8) bank3) (fun s => (s.ramEnable, s.hist)) =
    some (true, [.diag .ctrlUnrecognized]) := by decide
theorem test_wrRomBank : after (exec (.wrRomBank 0x1FFF#13 0xC5#8) State.reset) State.hist =
    some [.switchRomBank 5#6] := by decide
theorem test_wrRomBank_top : after (exec (.wrRomBank 0#13 0x7F#8) State.reset) State.hist =
    some [.switchRomBank 0x3F#6] := by decide
theorem test_wrRamBank : after (exec (.wrRamBank 0x1ABC#13 15#4) regMode)
    (fun s => (s.ramBankSel, s.registersActive, s.directRamMap, s.hist)) =
    some (15#4, false, true, [.switchRamBank 15#4]) := by decide
theorem test_wrRegMode : after (exec (.wrRegMode 0#13 0x13#8) { State.reset with ramBankSel := 2#4 })
    (fun s => (s.registersActive, s.directRamMap, s.ramBankSel, s.hist)) = some (true, false, 2#4, []) := by decide
theorem test_wrNopW3 : after (exec (.wrNopW3 0#13 0x0A#8) State.reset) (fun s => (s.ramEnable, s.hist)) =
    some (false, [.diag .unmapped]) := by decide
theorem test_wrNopW4 : after (exec (.wrNopW4 0#13 0x10#8) State.reset) (fun s => (s.registersActive, s.hist)) =
    some (false, [.diag .unmapped]) := by decide
theorem test_wrNopW6 : after (exec (.wrNopW6 0#13 0x0A#8) State.reset) (fun s => (s.ramEnable, s.hist)) =
    some (false, [.diag .unmapped]) := by decide
theorem test_wrNopW7 : after (exec (.wrNopW7 0x1FFF#13 0x10#8) State.reset) (fun s => (s.registersActive, s.hist)) =
    some (false, [.diag .unmapped]) := by decide
theorem test_wrCamIgnored : after (exec (.wrCamIgnored 0#13 0x01#8) State.reset) (fun s => (s.dirty, s.reg 0)) =
    some (false, 0x00#8) := by decide
/-- R112, D25: with HOST_RAM_WRITE = STORE the host's own store follows the ignored write. -/
theorem test_wrCamIgnored_stored : after (hostFollowUp (.wrCamIgnored 0x123#13 0x5A#8) { bank3 with config := highBank })
    (fun s => s.sram) = some [(0x6123, 0x5A#8)] := by decide
theorem test_wrCamTrigger_noFrame : after (exec (.wrCamTrigger 0#6 0x07#8) regMode)
    (fun s => (s.dirty, s.reg 0, s.hist)) = some (true, 0x06#8, []) := by decide
/-- P5 step 2: an unsupported format zeroes the buffer, reports, and still stores CTRL. -/
theorem test_wrCamTrigger_unsupported : after (exec (.wrCamTrigger 0#6 0x0F#8)
      { withImages Config.default [some ⟨.packed .w16 0, 128, []⟩] with sram := [(0xFF, 1#8), (0x100, 2#8), (0xF00, 3#8)] })
    (fun s => (s.reg 0, s.hist, s.sram)) =
    some (0x06#8, [.diag .unsupportedFormat], [(0xFF, 1#8), (0xF00, 3#8)]) := by decide
theorem test_wrCamReg_keepsHighBits : after (exec (.wrCamReg 0#6 0#7 0xF8#8) regMode) (fun s => (s.reg 0, s.dirty)) =
    some (0xF8#8, false) := by decide
theorem test_wrCamReg_edges : after (exec (.wrCamReg 0#6 53#7 0x96#8) regMode) (fun s => s.reg 53) = some 0x96#8 ∧
    after (exec (.wrCamReg 0#6 54#7 0x96#8) regMode) (fun s => s.regs) = some regMode.regs := by decide
theorem test_rdCamRam : after (exec (.rdCamRam 0x123#13) { bank3 with sram := [(0x6123, 0x5A#8)] }) State.readResult =
    some (some 0x5A#8) := by decide
/-- Section 2.4: RAM access disabled; the value is any byte, so only the draw is checked. -/
theorem test_rdCamRam_disabled : after (exec (.rdCamRam 0x100#13) State.reset) State.draws = some 1 := by decide
theorem test_rdCamCtrl : after (exec (.rdCamCtrl 47#6) { regMode with regs := 0xF8#8 :: List.replicate 53 0x01#8 })
    State.readResult = some (some 0xF8#8) := by decide
theorem test_rdCamZero : after (exec (.rdCamZero 0#6 2#7) { regMode with regs := List.replicate 54 0x01#8 })
    State.readResult = some (some 0x00#8) := by decide
theorem test_rdUnroutedLo : exec (.rdUnroutedLo 0x4000#15) regMode = .refused (.readUnrouted { regMode with refused := true }) :=
  rfl
theorem test_rdUnroutedW4 : exec (.rdUnroutedW4 0#13) regMode = .refused (.readUnrouted { regMode with refused := true }) :=
  rfl
theorem test_rdUnroutedHi : exec (.rdUnroutedHi 0x3FFF#14) regMode =
    .refused (.readUnrouted { regMode with refused := true }) := rfl

/-! ### The quantizer and the packer (sections 2.5 to 2.8) -/

theorem test_expose : expose 128#8 256#16 = 129 ∧ expose 127#8 128#16 = 64 ∧ expose 100#8 512#16 = 202 ∧
    expose 254#8 1#16 = 0 := by decide
theorem test_mindex : mindex 5 6 = 27 ∧ mindex 127 111 = 45 ∧ mindex 0 1 = 12 := by decide
theorem test_quant : quant 49 50#8 100#8 150#8 = .c101 ∧ quant 50 50#8 100#8 150#8 = .c100 ∧
    quant 129 50#8 100#8 150#8 = .c001 ∧ quant 150 50#8 100#8 150#8 = .c000 ∧ quant 150 100#8 200#8 50#8 = .c100 := by
  decide
theorem test_rawMap : rawMap .fault 85#8 = some .c100 ∧ rawMap .fault 200#8 = none ∧
    rawMap .nearest 200#8 = some .c001 ∧ rawMap .nearest 42#8 = some .c101 ∧ rawMap .nearest 213#8 = some .c000 := by
  decide
theorem test_tileOffset : tileOffset 9 10 = 0x114 ∧ tileOffset 127 111 = 0xDFE ∧ tileOffset 64 56 = 0x780 ∧
    pixelShift 9 = 6 := by decide
/-- The PACK table of section 2.8: three packs into one word. -/
theorem test_pack : pack 7 0 .c001 (pack 1 0 .c100 (pack 0 0 .c101 [])) = [(0x100, 0x81#8), (0x101, 0xC0#8)] ∧
    pack 9 10 .c001 [] = [(0x214, 0x40#8)] := by decide
/-- The worked example of R187: every code 0x001 gives 0xFF on even and 0x00 on odd offsets. -/
theorem test_closedForm : closedFormByte (fun _ _ => .c001) 0 = 0xFF#8 ∧
    closedFormByte (fun _ _ => .c001) 1 = 0x00#8 := by decide
/-- Section 2.8: byte 0x215 holds the plane-1 bits of pixels 8 to 15 of row 10, pixel 8 at bit 7. -/
theorem test_closedForm_place :
    closedFormByte (fun x y => if x = 8 ∧ y = 10 then .c100 else .c000) 0x115 = 0x80#8 := by decide
/-- A raw fault on the second pixel: the first stays packed, and the loop ends (R149). -/
theorem test_rawStop : packPixels (fun x _ => if x = 0 then .ok .c101 else .error 200#8) [(0, 0), (1, 0), (2, 0)] [] =
    ([(0x100, 0x80#8), (0x101, 0x80#8)], some (1, 0, 200#8)) := by decide

/-! ### Witnesses: encoding -/

theorem witness_DecodeOfEncode :
    ((Instr.wrCamTrigger 63#6 0x01#8).wellFormed = true ∧ (Instr.wrCamTrigger 63#6 0x01#8).allowedIn true = true) ∧
    ((Instr.rdCamRam 0x1FFF#13).wellFormed = true ∧ (Instr.rdCamRam 0x1FFF#13).allowedIn false = true) := by decide
theorem witness_ModeMattersInWindow5Only : fieldWin 0x1A00000#25 = 5#3 ∧ fieldWin 0x0BFFFFF#25 = 5#3 ∧
    fieldWin 0x19FFFFF#25 ≠ 5#3 ∧ fieldWin 0x0C00000#25 ≠ 5#3 := by decide
theorem witness_PseudoTransactionsExpand : (Pseudo.setReg 0#7 0xFE#8).wellFormed = true ∧
    (Pseudo.setReg 0x7F#7 0xFF#8).wellFormed = true := by decide
theorem witness_AliasesActAlike :
    (0xA000#16).toNat / 0x2000 = 5 ∧ (0xBF80#16).toNat / 0x2000 = 5 ∧ (0xA000#16).toNat % 0x80 = (0xBF80#16).toNat % 0x80 ∧
    (0xA07F#16).toNat / 0x2000 = 5 ∧ (0xBFFF#16).toNat / 0x2000 = 5 ∧ (0xA07F#16).toNat % 0x80 = (0xBFFF#16).toNat % 0x80 := by
  decide

/-! ### Witnesses: the step -/

theorem witness_StepRunsDecodedInstruction :
    configAdmissible (withMoves regMode [.transaction 0x1A00201#25]).config = true ∧
    (withMoves regMode [.transaction 0x1A00201#25]).inputs = .transaction 0x1A00201#25 :: [] := by decide
theorem witness_PlacedWordRunsNext : configAdmissible State.reset.config = true ∧
    decodeTableWord 25 0x1A00001 = some (.wrCamTrigger 0#6 0x01#8) ∧
    decodeTableWord 25 0x1FFFFFF = some (.wrNopW7 0x1FFF#13 0xFF#8) := by decide
theorem witness_HostMovesBetweenTransactions :
    (configAdmissible State.reset.config = true ∧ State.reset.inputs = []) ∧
    (withMoves State.reset [.clearDirty]).inputs = .clearDirty :: [] ∧
    ((withMoves State.reset [.storeRam 0x1FFFF 0x12#8]).sram.wf = true ∧
      (withMoves State.reset [.storeRam 0x1FFFF 0x12#8]).inputs = .storeRam 0x1FFFF 0x12#8 :: [] ∧
      State.reset.config.ramPresent = true ∧ 0x1FFFF < State.reset.config.ramBytes) ∧
    ((withMoves State.reset [.storeRam 0x20000 0x12#8]).inputs = .storeRam 0x20000 0x12#8 :: [] ∧
      State.reset.config.ramBytes ≤ 0x20000) ∧
    (configAdmissible noRam = true ∧ (withMoves (withConfig noRam) [.storeRam 0 0x12#8]).config.ramPresent = false) := by
  decide
/-- Each condition of R208 broken alone, at its boundary, and a state that meets them all. -/
theorem witness_BadConfigurationRefused :
    (∀ c ∈ [{ Config.default with regCount := 53 }, { Config.default with regCount := 129 },
      { Config.default with width := 120 }, { Config.default with height := 104 },
      { Config.default with ramBytes := 0xEFF }, { Config.default with formats := [.packed .w8 0] }],
      ¬ (54 ≤ c.regCount ∧ c.regCount ≤ 128 ∧ c.width = 128 ∧ c.height = 112 ∧ 0xF00 ≤ c.ramBytes ∧
        Format.l8 ∈ c.formats)) ∧
    (∀ c ∈ [Config.default, { Config.default with regCount := 128, ramBytes := 0xF00 }],
      54 ≤ c.regCount ∧ c.regCount ≤ 128 ∧ c.width = 128 ∧ c.height = 112 ∧ 0xF00 ≤ c.ramBytes ∧
        Format.l8 ∈ c.formats) := by decide
theorem witness_HostRamWriteFollowsIgnoredWrite :
    (∀ off d, Instr.wrRamDisable 0#13 ≠ .wrCamIgnored off d) ∧ State.reset.config.hostRamWrite ≠ .store ∧
    (let s := { bank3 with config := highBank, ramBankSel := 15#4 }
     s.config.hostRamWrite = .store ∧ s.directRamMap = true ∧ s.ramEnable = true ∧ s.config.ramPresent = true ∧
      s.sram.wf = true ∧ s.config.ramBankBase[s.ramBankSel.toNat] + (0x1FFF#13).toNat < s.config.ramBytes) ∧
    (let s := { bank3 with config := highBank, ramBankSel := 1#4 }
     s.config.ramBytes ≤ s.config.ramBankBase[s.ramBankSel.toNat] + (0x1000#13).toNat) := by
  exact ⟨fun _ _ => Instr.noConfusion, by decide⟩

/-! ### Witnesses: bus writes -/

theorem witness_RamDisableClearsEnable : Inv (withConfig noRam) ∧ (withConfig noRam).config.ramPresent = false := by decide
theorem witness_RamEnableReselectsBank : bank3.config.ramPresent = true ∧ (withConfig noRam).config.ramPresent = false := by
  decide
theorem witness_RamBankSelected : 0x140000F#25 &&& 0x1E000F0#25 = 0x1400000#25 ∧
    0x15FFF00#25 &&& 0x1E000F0#25 = 0x1400000#25 := by decide
theorem witness_RegisterWriteStoresOrDrops : regMode.regs.length = regMode.config.regCount ∧
    (53#7).toNat < regMode.config.regCount ∧ regMode.config.regCount ≤ (54#7).toNat ∧
    regMode.config.regCount ≤ (127#7).toNat := by decide

/-! ### Witnesses: the capture -/

/-- A frame of one luminance that covers W x H exactly. -/
def flatFrame (l : Byte) : Frame := ⟨.l8, 128, List.replicate 14336 l⟩

theorem covers_flatFrame {l : Byte} : covers (flatFrame l) = true := by
  rw [covers_iff]
  exact ⟨Nat.le_refl 128, by
    show 111 * 128 + 128 ≤ (List.replicate 14336 l).length
    rw [List.length_replicate]⟩

/-- RAW capture; pixels with an undefined luminance fault. -/
def rawConfig : Config := { Config.default with captureMode := .raw }

/-- One frame waits. -/
def oneFrame (c : Config) (f : Frame) : State := withImages c [some f]

theorem inv_oneFrame {f : Frame} (c : Config) (h : c = Config.default ∨ c = rawConfig) : Inv (oneFrame c f) := by
  have e : Inv (oneFrame c f) ↔ Inv (withImages c []) := Iff.rfl
  rw [e]
  rcases h with rfl | rfl <;> decide

theorem frameReady_oneFrame {f : Frame} (c : Config) (h : c = Config.default ∨ c = rawConfig) (hf : f.fmt = .l8)
    (hc : covers f = true) : frameReady (oneFrame c f) f := by
  refine ⟨rfl, ?_, ?_, hc⟩ <;> rcases h with rfl | rfl
  · rfl
  · rfl
  · rw [hf]; exact List.mem_singleton_self _
  · rw [hf]; exact List.mem_singleton_self _

/-- Every weighted capture of a ready frame answers a next state. -/
theorem trigger_completes {s : State} {f : Frame} (ign : BitVec 6) (d : Byte) (hI : Inv s)
    (hm : s.config.captureMode = .weighted) (hr : frameReady s f) : ∃ t, exec (.wrCamTrigger ign d) s = .next t := by
  have hr' : frameReady (s.setDirty true) f := hr
  have hcap := capture_ready hr' hI.bufferFits
  generalize hu : (s.setDirty true).afterRequest.setSram (zeroBuffer (s.setDirty true).sram) = u' at hcap
  have hc : ∀ p ∈ pixelOrder, pixelCode u' f p.1 p.2 = .ok (weightedCode u' f p.1 p.2) := by
    intro p _
    have : u'.config.captureMode = .weighted := by rw [← hu]; exact hm
    simp only [pixelCode, this]
  have hn := packPixels_complete (m := u'.sram) hc
  have hp := packFrame_ok (f := f) (s := u') (Prod.ext rfl hn)
  generalize u'.setSram (packPixels (pixelCode u' f) pixelOrder u'.sram).1 = v at hp
  exact ⟨v.setReg 0 (triggerStored d), by simp only [exec, execWrCamTrigger, hcap, hp, andThen_next]⟩

theorem witness_TriggerWriteFrame : regMode.sram.wf = true ∧ regMode.regs.length = regMode.config.regCount ∧
    54 ≤ regMode.config.regCount ∧ ∃ t, exec (.wrCamTrigger 0#6 0x01#8) regMode = .next t :=
  ⟨by decide, by decide, by decide, _, rfl⟩
theorem witness_TriggerWriteFrame_captured : ∃ t, exec (.wrCamTrigger 63#6 0xFF#8) (oneFrame Config.default (flatFrame 128#8)) =
    .next t :=
  trigger_completes _ _ (inv_oneFrame _ (.inl rfl)) rfl (frameReady_oneFrame _ (.inl rfl) rfl covers_flatFrame)
theorem witness_TriggerWithoutFrame : regMode.requestedImage = none ∧
    (withImages Config.default [none]).requestedImage = none := ⟨rfl, rfl⟩
theorem witness_TriggerWithUnsupportedFormat : Inv (oneFrame Config.default ⟨.packed .w16 0, 128, []⟩) ∧
    (oneFrame Config.default ⟨.packed .w16 0, 128, []⟩).requestedImage = some ⟨.packed .w16 0, 128, []⟩ ∧
    (oneFrame Config.default ⟨.packed .w16 0, 128, []⟩).config.ramPresent = true ∧
    Format.packed .w16 0 ∉ (oneFrame Config.default ⟨.packed .w16 0, 128, []⟩).config.formats :=
  ⟨inv_oneFrame _ (.inl rfl), rfl, rfl, by decide⟩
theorem witness_WeightedCaptureCompletes : Inv (oneFrame Config.default (flatFrame 128#8)) ∧
    (oneFrame Config.default (flatFrame 128#8)).config.captureMode = .weighted ∧
    frameReady (oneFrame Config.default (flatFrame 128#8)) (flatFrame 128#8) :=
  ⟨inv_oneFrame _ (.inl rfl), rfl, frameReady_oneFrame _ (.inl rfl) rfl covers_flatFrame⟩

/-- The luminance of a pixel of a flat frame. -/
theorem pixelLuma_flatFrame {l : Byte} {x y : Nat} (hx : x < 128) (hy : y < 112) : pixelLuma (flatFrame l) x y = l := by
  show (List.replicate 14336 l).getD (y * 128 + x) 0 = l
  rw [List.getD_eq_getElem?_getD, List.getElem?_replicate, if_pos (by omega)]
  rfl

theorem witness_RawCaptureCompletes : Inv (oneFrame rawConfig (flatFrame 85#8)) ∧
    (oneFrame rawConfig (flatFrame 85#8)).config.captureMode = .raw ∧
    frameReady (oneFrame rawConfig (flatFrame 85#8)) (flatFrame 85#8) ∧
    ∀ x y, x < 128 → y < 112 →
      rawMap (oneFrame rawConfig (flatFrame 85#8)).config.rawUndefPolicy (pixelLuma (flatFrame 85#8) x y) =
        some ((fun _ _ => Code.c100) x y) :=
  ⟨inv_oneFrame _ (.inr rfl), rfl, frameReady_oneFrame _ (.inr rfl) rfl covers_flatFrame,
   fun x y hx hy => by rw [pixelLuma_flatFrame hx hy]; rfl⟩

/-- A fault at the very first pixel: nothing stands before it. -/
theorem witness_RawFaultAtFirstUndefinedPixel : Inv (oneFrame rawConfig (flatFrame 200#8)) ∧
    (oneFrame rawConfig (flatFrame 200#8)).config.captureMode = .raw ∧
    (oneFrame rawConfig (flatFrame 200#8)).config.rawUndefPolicy = .fault ∧
    frameReady (oneFrame rawConfig (flatFrame 200#8)) (flatFrame 200#8) ∧
    pixelLuma (flatFrame 200#8) 0 0 ≠ 0#8 ∧ pixelLuma (flatFrame 200#8) 0 0 ≠ 85#8 ∧
    pixelLuma (flatFrame 200#8) 0 0 ≠ 170#8 ∧ pixelLuma (flatFrame 200#8) 0 0 ≠ 255#8 ∧
    ∀ x y, x < 128 → y < 112 → pixelRank x y < pixelRank 0 0 →
      rawLevelCode (pixelLuma (flatFrame 200#8) x y) = some ((fun _ _ => Code.c000) x y) := by
  have e : pixelLuma (flatFrame 200#8) 0 0 = 200#8 := pixelLuma_flatFrame (by omega) (by omega)
  refine ⟨inv_oneFrame _ (.inr rfl), rfl, rfl, frameReady_oneFrame _ (.inr rfl) rfl covers_flatFrame, ?_, ?_, ?_, ?_, ?_⟩
  · rw [e]; decide
  · rw [e]; decide
  · rw [e]; decide
  · rw [e]; decide
  · intro x y _ _ h; exact absurd h (Nat.not_lt_zero _)

/-- A frame whose only undefined luminance is the last pixel's. -/
def lastBad : Frame := ⟨.l8, 128, List.replicate 14335 85#8 ++ [200#8]⟩

theorem pixelLuma_lastBad {x y : Nat} (hx : x < 128) (hy : y < 112) :
    pixelLuma lastBad x y = if pixelRank x y < 14335 then 85#8 else 200#8 := by
  show (List.replicate 14335 85#8 ++ [200#8]).getD (y * 128 + x) 0 = _
  have e : pixelRank x y = 128 * y + x := rfl
  rw [List.getD_eq_getElem?_getD, List.getElem?_append, List.length_replicate]
  by_cases h : y * 128 + x < 14335
  · rw [if_pos h, List.getElem?_replicate, if_pos h, if_pos (by omega)]; rfl
  · rw [if_neg h, if_neg (by omega), show y * 128 + x - 14335 = 0 by omega]; rfl

theorem witness_RawFaultAtFirstUndefinedPixel_last : Inv (oneFrame rawConfig lastBad) ∧
    frameReady (oneFrame rawConfig lastBad) lastBad ∧ pixelLuma lastBad 127 111 = 200#8 ∧
    ∀ x y, x < 128 → y < 112 → pixelRank x y < pixelRank 127 111 →
      rawLevelCode (pixelLuma lastBad x y) = some ((fun _ _ => Code.c100) x y) := by
  refine ⟨inv_oneFrame _ (.inr rfl), frameReady_oneFrame _ (.inr rfl) rfl ?_, ?_, ?_⟩
  · rw [covers_iff]
    refine ⟨Nat.le_refl 128, ?_⟩
    show 111 * 128 + 128 ≤ (List.replicate 14335 85#8 ++ [200#8]).length
    rw [List.length_append, List.length_replicate]; decide
  · rw [pixelLuma_lastBad (by omega) (by omega)]; rfl
  · intro x y hx hy h
    have h' : pixelRank x y < 14335 := h
    rw [pixelLuma_lastBad hx hy, if_pos h']; rfl

/-- A frame one element short of W x H, and one with a stride one short of W (section 2.9). -/
theorem witness_CaptureRefusals :
    ((oneFrame noRam ⟨.l8, 128, []⟩).requestedImage = some ⟨.l8, 128, []⟩ ∧
      (oneFrame noRam ⟨.l8, 128, []⟩).config.ramPresent = false) ∧
    (let f : Frame := ⟨.l8, 128, List.replicate 14335 0#8⟩
     Inv (oneFrame Config.default f) ∧ (oneFrame Config.default f).requestedImage = some f ∧
      (oneFrame Config.default f).config.ramPresent = true ∧ f.fmt ∈ (oneFrame Config.default f).config.formats ∧
      f.data.length < 111 * f.stride + 128) ∧
    (let f : Frame := ⟨.l8, 127, List.replicate 14336 0#8⟩
     Inv (oneFrame Config.default f) ∧ (oneFrame Config.default f).requestedImage = some f ∧
      f.fmt ∈ (oneFrame Config.default f).config.formats ∧ f.stride < 128) := by
  refine ⟨⟨rfl, rfl⟩, ⟨inv_oneFrame _ (.inl rfl), rfl, rfl, List.mem_singleton_self _, ?_⟩,
    inv_oneFrame _ (.inl rfl), rfl, List.mem_singleton_self _, by decide⟩
  show (List.replicate 14335 0#8).length < 111 * 128 + 128
  rw [List.length_replicate]
  decide

/-- Two states with different CTRL, bank and buffer contents that see the same frame. -/
theorem witness_IdenticalCapturesIdenticalOutput :
    let f := flatFrame 128#8
    let s := oneFrame Config.default f
    let s' := { s with regs := 0x06#8 :: List.replicate 53 0x00#8, ramBankSel := 1#4, sram := [(0x100, 1#8)] }
    Inv s ∧ Inv s' ∧ s.config = s'.config ∧ (∀ i, 2 ≤ i → s.reg i = s'.reg i) ∧ s.requestedImage = some f ∧
      s'.requestedImage = some f ∧ (∃ t, exec (.wrCamTrigger 0#6 0x01#8) s = .next t) ∧
      ∃ t', exec (.wrCamTrigger 1#6 0xFF#8) s' = .next t' := by
  intro f s s'
  have hI : Inv s := inv_oneFrame _ (.inl rfl)
  have hI' : Inv s' := by
    have e : Inv s' ↔ Inv { regMode with regs := 0x06#8 :: List.replicate 53 0x00#8, ramBankSel := 1#4, sram := [(0x100, 1#8)] } :=
      Iff.rfl
    rw [e]; decide
  have hr : frameReady s f := frameReady_oneFrame _ (.inl rfl) rfl covers_flatFrame
  refine ⟨hI, hI', rfl, ?_, rfl, rfl, trigger_completes _ _ hI rfl hr, trigger_completes _ _ hI' rfl hr⟩
  intro i hi
  show (List.replicate 54 0x00#8).getD i 0x00#8 = (0x06#8 :: List.replicate 53 0x00#8).getD i 0x00#8
  obtain ⟨j, rfl⟩ : ∃ j, i = j + 1 := ⟨i - 1, by omega⟩
  rfl

/-! ### Witnesses: the packer and the quantizer -/

theorem witness_PackingOrderIrrelevant : Memory.wf [] = true ∧ pixelOrder.reverse.Perm pixelOrder :=
  ⟨rfl, List.reverse_perm _⟩
theorem witness_PixelsOwnDistinctBits :
    (127 < 128 ∧ 111 < 112 ∧ pixelAddr 127 111 = pixelAddr 127 111 ∧ pixelShift 127 = pixelShift 127) ∧
    (0x100 ≤ 0xEFE ∧ 0xEFE ≤ 0xEFE ∧ 0xEFE % 2 = 0 ∧ 7 < 8) := by decide
theorem witness_PackOrsOneWord : Memory.wf [] = true ∧ Memory.wf [(0xEFE, 0x80#8), (0xEFF, 0x01#8)] = true := by decide
theorem witness_QuantizerMonotone : (50#8).toNat ≤ (100#8).toNat ∧ (100#8).toNat ≤ (150#8).toNat ∧ 49 ≤ 50 ∧
    (255#8).toNat ≤ (255#8).toNat := by decide
theorem witness_RawMapping : (84#8 ≠ 0#8 ∧ 84#8 ≠ 85#8 ∧ 84#8 ≠ 170#8 ∧ 84#8 ≠ 255#8) ∧
    (254#8 ≠ 0#8 ∧ 254#8 ≠ 85#8 ∧ 254#8 ≠ 170#8 ∧ 254#8 ≠ 255#8) := by decide

/-! ### Witnesses: bus reads -/

theorem witness_ControlByteRead : Inv regMode := by decide
theorem witness_RamModeReadReturnsByte :
    (let s := { bank3 with ramBankSel := 15#4 }
     s.config.ramPresent = true ∧ s.ramEnable = true ∧
      s.config.ramBankBase[s.ramBankSel.toNat] + (0x1FFF#13).toNat < s.config.ramBytes) ∧
    (let s := { bank3 with config := highBank, ramBankSel := 1#4 }
     s.config.ramPresent = true ∧ s.ramEnable = true ∧
      s.config.ramBytes ≤ s.config.ramBankBase[s.ramBankSel.toNat] + (0x1000#13).toNat) := by decide
theorem witness_DisabledReadIsFree : (withConfig noRam).config.ramPresent = false ∧ State.reset.ramEnable = false := by decide
theorem witness_ReadsHaveNoSideEffects : (Instr.rdCamRam 0x1FFF#13).isRead = true ∧
    ∃ t, exec (.rdCamRam 0x1FFF#13) bank3 = .next t := ⟨rfl, _, rfl⟩

/-! ### Witnesses: whole-machine rules -/

theorem witness_RegisterAccessRights :
    (∃ t, step (withMoves regMode [.transaction 0x1A03596#25]) = .next t ∧ t.regs ≠ regMode.regs) ∧
    ((∀ ign d, Instr.rdCamCtrl 63#6 ≠ .wrCamTrigger ign d) ∧ (∀ ign r d, Instr.rdCamCtrl 63#6 ≠ .wrCamReg ign r d) ∧
      (0x00#8 :: List.replicate 53 0xFF#8).getD 0 0x00#8 = regMode.reg 0) ∧
    ((∀ ign d, Instr.wrNopW7 0#13 0#8 ≠ .wrCamTrigger ign d) ∧ (∀ ign r d, Instr.wrNopW7 0#13 0#8 ≠ .wrCamReg ign r d) ∧
      (Instr.wrNopW7 0#13 0#8).isRead = false) ∧
    ∀ i, i = 2 ∨ i = 3 ∨ (6 ≤ i ∧ i ≤ 53) → (List.replicate 54 0x00#8 |>.set 5 0xFF#8).getD i 0x00#8 = regMode.reg i := by
  refine ⟨⟨_, rfl, by decide⟩, ⟨fun _ _ => Instr.noConfusion, fun _ _ _ => Instr.noConfusion, by decide⟩,
    ⟨fun _ _ => Instr.noConfusion, fun _ _ _ => Instr.noConfusion, rfl⟩, ?_⟩
  intro i hi
  have h : ∀ i, i < 54 → i ≠ 5 → (List.replicate 54 0x00#8 |>.set 5 0xFF#8).getD i 0x00#8 = regMode.reg i := by decide
  exact h i (by omega) (by omega)
theorem witness_RegisterCountUnobservable :
    sameButN State.reset { State.reset with config := { Config.default with regCount := 128 }, regs := List.replicate 128 0x00#8 } := by
  refine ⟨by decide, by decide, by decide, by decide, by decide, by decide, by decide, rfl⟩
theorem witness_StepKeepsInvariant : Inv (withMoves regMode [.transaction 0x1A000FE#25]) ∧
    ∃ t, step (withMoves regMode [.transaction 0x1A000FE#25]) = .next t := ⟨by decide, _, rfl⟩
theorem witness_LaunchMeetsInvariant : configAdmissible Config.default = true ∧ Memory.wf [(0, 1#8), (0x1FFFF, 0xFF#8)] = true ∧
    Memory.within [(0, 1#8), (0x1FFFF, 0xFF#8)] Config.default.ramBytes = true := by decide
theorem witness_ConfigurationAndMarksKept : ∃ t, step (withMoves State.reset [.transaction 0x100000A#25]) = .next t :=
  ⟨_, rfl⟩
/-- A window-2 write of 0x10, of 0x0F, and a transaction of another window. -/
theorem witness_ModeChangesOnlyByWindow2 :
    (isWriteTo 2#3 0x1400010#25 ∧ (withMoves State.reset [.transaction 0x1400010#25]).nextWord = some 0x1400010#25 ∧
      ∃ t, step (withMoves State.reset [.transaction 0x1400010#25]) = .next t) ∧
    (isWriteTo 2#3 0x140000F#25 ∧ (withMoves regMode [.transaction 0x140000F#25]).nextWord = some 0x140000F#25 ∧
      ∃ t, step (withMoves regMode [.transaction 0x140000F#25]) = .next t) ∧
    (¬ isWriteTo 2#3 0x1600000#25 ∧ (withMoves regMode [.transaction 0x1600000#25]).nextWord = some 0x1600000#25 ∧
      ∃ t, step (withMoves regMode [.transaction 0x1600000#25]) = .next t) :=
  ⟨⟨by decide, rfl, _, rfl⟩, ⟨by decide, rfl, _, rfl⟩, by decide, rfl, _, rfl⟩
theorem witness_ControlBitsWriters :
    (isWriteTo 0#3 0x11FFF00#25 ∧ fieldD 0x11FFF00#25 = 0x00#8) ∧ (isWriteTo 0#3 0x100000A#25 ∧ fieldD 0x100000A#25 = 0x0A#8) ∧
    (isWriteTo 2#3 0x140000F#25 ∧ (fieldD 0x140000F#25).toNat < 0x10) ∧ ¬ (fieldD 0x1400010#25).toNat < 0x10 ∧
    ¬ isWriteTo 0#3 0x1400010#25 ∧ ¬ isWriteTo 2#3 0x100000A#25 ∧
    (∃ t, step (withMoves bank3 [.transaction 0x11FFF00#25]) = .next t) ∧
    (∃ t, step (withMoves bank3 [.transaction 0x140000F#25]) = .next t) ∧
    ∃ t, step (withMoves bank3 [.transaction 0x1400010#25]) = .next t :=
  ⟨by decide, by decide, by decide, by decide, by decide, by decide, ⟨_, rfl⟩, ⟨_, rfl⟩, _, rfl⟩
theorem witness_DirtySetByTriggersClearedByHost :
    (isTrigger true 0x1BF80FF#25 ∧ ∃ t, step (withMoves regMode [.transaction 0x1BF80FF#25]) = .next t) ∧
    (¬ isTrigger true 0x1A000FE#25 ∧ ∃ t, step (withMoves regMode [.transaction 0x1A000FE#25]) = .next t) ∧
    (∃ t, step (withMoves { regMode with dirty := true } [.clearDirty]) = .next t) ∧
    ((withMoves regMode [.storeRam 0 1#8]).nextWord = none ∧ ∃ t, step (withMoves regMode [.storeRam 0 1#8]) = .next t) :=
  ⟨⟨by decide, _, rfl⟩, ⟨by decide, _, rfl⟩, ⟨_, rfl⟩, rfl, _, rfl⟩
theorem witness_AtMostOneEvent : (∃ t, step (withMoves regMode [.transaction 0x1C00000#25]) = .next t) ∧
    ((withMoves regMode [.clearDirty]).nextWord = none ∧ ∃ t, step (withMoves regMode [.clearDirty]) = .next t) ∧
    (fieldRw 0x0A00000#25 = false ∧ ∃ t, step (withMoves regMode [.transaction 0x0A00000#25]) = .next t) :=
  ⟨⟨_, rfl⟩, ⟨rfl, _, rfl⟩, rfl, _, rfl⟩
theorem witness_OnlyCapturesWriteRam :
    (let s := withMoves regMode [.transaction 0x1A00001#25]
     s.sram.wf = true ∧ s.config.hostRamWrite = .none ∧ s.nextWord = some 0x1A00001#25 ∧ ∃ t, step s = .next t) ∧
    ¬ inBuffer 0xFF ∧ ¬ inBuffer 0xF00 ∧ ¬ isTrigger false 0x1A00001#25 :=
  ⟨⟨rfl, rfl, rfl, _, rfl⟩, by decide, by decide, by decide⟩
theorem witness_WriteDispatch : 54 ≤ State.reset.config.regCount := by decide

end Sys2Proof.Tests
end

section
/-! SUPPORT. What the decoded instruction says of its word: the window of a write, the mode its row needs, and the two
rows of window 2 (30_encoding.md R71, R74). -/

namespace Sys2Proof

/-- The window that a bus write goes to, none for a bus read (the rows of R74). -/
def Instr.writeWindow : Instr → Option (BitVec 3)
  | .wrRamDisable _ => some 0#3
  | .wrRamEnable _ => some 0#3
  | .wrRamCtlIgnored _ _ => some 0#3
  | .wrRomBank _ _ => some 1#3
  | .wrRamBank _ _ => some 2#3
  | .wrRegMode _ _ => some 2#3
  | .wrNopW3 _ _ => some 3#3
  | .wrNopW4 _ _ => some 4#3
  | .wrCamIgnored _ _ => some 5#3
  | .wrCamTrigger _ _ => some 5#3
  | .wrCamReg _ _ _ => some 5#3
  | .wrNopW6 _ _ => some 6#3
  | .wrNopW7 _ _ => some 7#3
  | .rdCamRam _ => none
  | .rdCamCtrl _ => none
  | .rdCamZero _ _ => none
  | .rdUnroutedLo _ => none
  | .rdUnroutedW4 _ => none
  | .rdUnroutedHi _ => none

variable {ra : Bool} {w : TWord} {n : BitVec 3}

theorem writeWindow_decodeWrite : (decodeWrite ra w).writeWindow = some (fieldWin w) := by
  simp only [decodeWrite]
  split_ifs <;> simp only [Instr.writeWindow, Option.some.injEq] <;> bv_omega

theorem writeWindow_decodeRead : (decodeRead ra w).writeWindow = none := by
  simp only [decodeRead]
  split_ifs <;> rfl

/-- A word is a write to window n exactly if the row it decodes to is one of window n's write rows, in either mode. -/
theorem writeWindow_decode_eq_some : (decode ra w).writeWindow = some n ↔ Machine.isWriteTo n w := by
  unfold decode Machine.isWriteTo
  split
  case isTrue hrw => simp [writeWindow_decodeWrite, hrw]
  case isFalse hrw => simp [writeWindow_decodeRead, hrw]

/-- The decoder takes a row only in the mode the row needs (R71). -/
theorem allowedIn_decode : (decode ra w).allowedIn ra = true := by
  simp only [decode, decodeWrite, decodeRead]
  cases ra <;> simp only [reduceCtorEq, if_true, if_false] <;> split_ifs <;> rfl

/-- A byte with its high nibble clear is less than 0x10 (the mask of R74's row 5). -/
theorem highNibble_eq_zero_iff {d : Byte} : d.extractLsb' 4 4 = 0#4 ↔ d.toNat < 0x10 := by
  revert d
  decide

/-- The rows of window 2: WR_RAM_BANK below 0x10, WR_REG_MODE from 0x10 on. -/
theorem decode_windowTwo (h : Machine.isWriteTo 2#3 w) : decode ra w =
    if (fieldD w).toNat < 0x10 then .wrRamBank (fieldOff w) ((fieldD w).extractLsb' 0 4)
    else .wrRegMode (fieldOff w) (fieldD w) := by
  obtain ⟨hrw, hwin⟩ := h
  simp [decode, decodeWrite, hrw, hwin, highNibble_eq_zero_iff]

end Sys2Proof
end

section
/-! SUPPORT. What an instruction and a step can do where they answer a next state, once for all invariants. -/

namespace Sys2Proof.Machine

variable {s t : State}

/-- What an instruction can do: switch the mode (R104, R105), write registers (R110, R111), or leave all but ramEnable,
the history and the model's own read result and draw counter as they are. -/
theorem exec_next_cases {i : Instr} (h : exec i s = .next t) :
    (∃ off bank, i = .wrRamBank off bank ∧ t = (s.emit (.switchRamBank bank)).enterRamMode bank) ∨
    (∃ off d, i = .wrRegMode off d ∧ t = s.enterRegisterMode) ∨
    (∃ ign d u, i = .wrCamTrigger ign d ∧ capture (s.setDirty true) = .next u ∧ t = u.setReg 0 (triggerStored d)) ∨
    (∃ ign r d, i = .wrCamReg ign r d ∧ t = if r.toNat < s.config.regCount then s.setReg r.toNat d else s) ∨
    t = { s with ramEnable := t.ramEnable, hist := t.hist, readResult := t.readResult, draws := t.draws } := by
  cases i
  case wrRamBank off bank =>
    cases h
    exact .inl ⟨off, bank, rfl, rfl⟩
  case wrRegMode off d =>
    cases h
    exact .inr (.inl ⟨off, d, rfl, rfl⟩)
  case wrCamTrigger ign d =>
    obtain ⟨u, hu, ht⟩ := execWrCamTrigger_next ign h
    exact .inr (.inr (.inl ⟨ign, d, u, rfl, hu, ht⟩))
  case wrCamReg ign r d =>
    refine .inr (.inr (.inr (.inl ⟨ign, r, d, rfl, ?_⟩)))
    simp only [exec, execWrCamReg] at h
    split at h <;> cases h <;> simp [*]
  case wrRamEnable off =>
    simp only [exec, execWrRamEnable] at h
    split at h <;> cases h <;> simp [State.emit, State.setRamEnable]
  case rdCamRam off =>
    simp only [exec, execRdCamRam] at h
    split_ifs at h <;> cases h <;> simp [State.answerRead, State.answerDisabledRead]
  case rdUnroutedLo | rdUnroutedW4 | rdUnroutedHi => cases h
  all_goals
    cases h
    exact .inr (.inr (.inr (.inr rfl)))

/-- Only a window-5 write in register-active mode leaves other registers (R27). -/
theorem exec_regs {i : Instr} (h : exec i s = .next t) (hi : i.writeWindow = some 5#3 → i.neededMode ≠ some true) :
    t.regs = s.regs := by
  rcases exec_next_cases h with ⟨_, _, -, rfl⟩ | ⟨_, _, -, rfl⟩ | ⟨_, _, _, rfl, -⟩ | ⟨_, _, _, rfl, -⟩ | ht
  · rfl
  · rfl
  · exact absurd rfl (hi rfl)
  · exact absurd rfl (hi rfl)
  · rw [ht]

/-- No instruction but window 2's changes the mode (R28). -/
theorem exec_registersActive {i : Instr} (h : exec i s = .next t) (hi : i.writeWindow ≠ some 2#3) :
    t.registersActive = s.registersActive := by
  rcases exec_next_cases h with ⟨_, _, rfl, -⟩ | ⟨_, _, rfl, -⟩ | ⟨_, _, _, -, hu, rfl⟩ | ⟨_, _, _, -, rfl⟩ | ht
  · exact absurd rfl hi
  · exact absurd rfl hi
  · rw [State.setReg_registersActive, capture_frame hu, State.setDirty_registersActive]
  · split <;> rfl
  · rw [ht]

/-- What a step can do: without a bus access it moves only the queue, dirty and sram (logs 1, 12); with one it runs the
decoded instruction, after which the host may write sram (D25). -/
theorem step_next_cases (h : step s = .next t) :
    (s.nextWord = none ∧ t = { s with inputs := t.inputs, dirty := t.dirty, sram := t.sram }) ∨
    ∃ w rest u, s.nextWord = some w ∧ exec (decode s.registersActive w) (s.setInputs rest) = .next u ∧
      t = u.setSram t.sram := by
  obtain ⟨-, ⟨hin, rfl⟩ | ⟨m, rest, hin, ⟨w, rfl, h⟩ | ⟨rfl, rfl⟩ | ⟨off, v, rfl, h⟩⟩⟩ := step_next h
  · exact .inl ⟨by rw [State.nextWord, hin], rfl⟩
  · obtain ⟨u, hu, hf⟩ := runTransaction_next h
    refine .inr ⟨w, rest, u, by rw [State.nextWord, hin], hu, ?_⟩
    rcases hostFollowUp_next hf with rfl | ⟨_, _, -, -, -, rfl⟩ <;> rfl
  · exact .inl ⟨by rw [State.nextWord, hin], rfl⟩
  · obtain ⟨-, rfl⟩ := hostStore_next h
    exact .inl ⟨by rw [State.nextWord, hin], rfl⟩

end Sys2Proof.Machine
end

section
/-! PROOF. The mode bit registersActive (10_state.md R28). -/

namespace Sys2Proof.Machine

/-- A window-2 write sets the mode by its value (R104, R105). -/
theorem exec_windowTwo_registersActive {w : TWord} {ra : Bool} {s t : State} (hw : isWriteTo 2#3 w)
    (h : exec (decode ra w) s = .next t) : t.registersActive = decide (0x10 ≤ (fieldD w).toNat) := by
  rw [decode_windowTwo hw] at h
  split at h
  case isTrue hd =>
    cases h
    simp [hd]
  case isFalse hd =>
    cases h
    simpa using hd

/-- Settles O52: a bus access that is no window-2 write, and a move of the host alone, leave the mode as it is. -/
theorem modeChangesOnlyByWindow2 : Obligations.ModeChangesOnlyByWindow2 := by
  unfold Obligations.ModeChangesOnlyByWindow2
  intro s t h
  rcases step_next_cases h with ⟨hn, ht⟩ | ⟨w, rest, u, hw, hu, ht⟩
  · refine ⟨fun w hw => ?_, fun _ => by rw [ht]⟩
    rw [hn] at hw
    cases hw
  · rw [ht, State.setSram_registersActive]
    constructor
    · intro w' hw' h2
      obtain rfl : w = w' := Option.some.inj (hw.symm.trans hw')
      exact exec_windowTwo_registersActive h2 hu
    · intro h2
      exact exec_registersActive (s := s.setInputs rest) hu (mt writeWindow_decode_eq_some.1 (h2 w hw))

end Sys2Proof.Machine
end

section
/-! PROOF. Who writes and who reads the register file (10_state.md R27). -/

namespace Sys2Proof.Machine

/-! ### The registers a capture takes -/

/-- Two states agree in the registers a capture takes: EXPOSURE's and the threshold matrix's (R25, R26). -/
def captureRegsAgree (s s' : State) : Prop := ∀ i, i = 2 ∨ i = 3 ∨ (6 ≤ i ∧ i ≤ 53) → s'.reg i = s.reg i

variable {s s' : State} {f : Frame} {x y : Nat} {regs' : List Byte}

/-- The last threshold index is 45, so the last register is 53 (R163, R164). -/
theorem mindex_le : mindex x y ≤ 45 := by
  unfold mindex
  omega

theorem weightedCode_congr (h : captureRegsAgree s s') : weightedCode s' f x y = weightedCode s f x y := by
  have hm : mindex x y ≤ 45 := mindex_le
  unfold weightedCode exposure darkAt midAt lightAt
  rw [h 2 (by omega), h 3 (by omega), h (mindex x y + 6) (by omega), h (mindex x y + 7) (by omega),
    h (mindex x y + 8) (by omega)]

/-- A pixel's code depends on the registers a capture takes, the capture mode and the raw policy. -/
theorem pixelCode_congr (h : captureRegsAgree s s') (hm : s'.config.captureMode = s.config.captureMode)
    (hp : s'.config.rawUndefPolicy = s.config.rawUndefPolicy) : pixelCode s' f = pixelCode s f := by
  funext x y
  unfold pixelCode
  rw [hm, hp, weightedCode_congr h]

/-! ### A capture with other registers -/

theorem packFrame_withRegs (h : captureRegsAgree s { s with regs := regs' }) :
    packFrame f { s with regs := regs' } = outcomeWithRegs regs' (packFrame f s) := by
  have hc : pixelCode { s with regs := regs' } f = pixelCode s f := pixelCode_congr h rfl rfl
  rcases hp : packPixels (pixelCode s f) pixelOrder s.sram with ⟨m, _ | ⟨x, y, l⟩⟩
  · rw [packFrame_ok hp, packFrame_ok (s := { s with regs := regs' }) (by rw [hc]; exact hp)]
    rfl
  · rw [packFrame_fault hp, packFrame_fault (s := { s with regs := regs' }) (by rw [hc]; exact hp)]
    rfl

theorem captureZeroed_withRegs (h : captureRegsAgree s { s with regs := regs' }) :
    captureZeroed f { s with regs := regs' } = outcomeWithRegs regs' (captureZeroed f s) := by
  unfold captureZeroed
  split_ifs
  · rfl
  · rfl
  · exact packFrame_withRegs h

theorem captureFrame_withRegs (h : captureRegsAgree s { s with regs := regs' }) :
    captureFrame f { s with regs := regs' } = outcomeWithRegs regs' (captureFrame f s) := by
  unfold captureFrame
  split_ifs
  · rfl
  · rfl
  · exact captureZeroed_withRegs (s := s.setSram (zeroBuffer s.sram)) h

/-- A capture takes nothing from the registers but EXPOSURE and the thresholds, and passes the rest on (R27). -/
theorem capture_withRegs (h : captureRegsAgree s { s with regs := regs' }) :
    capture { s with regs := regs' } = outcomeWithRegs regs' (capture s) := by
  cases hr : s.requestedImage with
  | none => rw [capture_none hr, capture_none (s := { s with regs := regs' }) hr]; rfl
  | some f =>
    rw [capture_some hr, capture_some (s := { s with regs := regs' }) hr]
    exact captureFrame_withRegs (s := s.afterRequest) h

/-! ### The other transactions with other registers -/

/-- A transaction that is no register write takes nothing from the registers, a read at most regs[0] (R27, R130). -/
theorem exec_withRegs {i : Instr} (ht : ∀ ign d, i ≠ .wrCamTrigger ign d) (hr : ∀ ign r d, i ≠ .wrCamReg ign r d)
    (h0 : i.isRead = true → regs'.getD 0 0x00#8 = s.reg 0) :
    exec i { s with regs := regs' } = outcomeWithRegs regs' (exec i s) := by
  cases i
  case wrCamTrigger ign d => exact absurd rfl (ht ign d)
  case wrCamReg ign r d => exact absurd rfl (hr ign r d)
  case rdCamCtrl ign =>
    have h : State.reg { s with regs := regs' } 0 = s.reg 0 := h0 rfl
    simp only [exec, execRdCamCtrl, h]
    rfl
  case wrRamEnable off =>
    simp only [exec, execWrRamEnable]
    split <;> rfl
  case rdCamRam off =>
    simp only [exec, execRdCamRam]
    split
    · rfl
    · rw [show ramModeOffset { s with regs := regs' } off = ramModeOffset s off from rfl]
      split <;> rfl
  all_goals rfl

/-- Where a step changes the registers, its bus access is a window-5 write in register-active mode (R27). -/
theorem step_regs_ne {t : State} (h : step s = .next t) (hne : t.regs ≠ s.regs) :
    s.registersActive = true ∧ ∃ w, s.nextWord = some w ∧ isWriteTo 5#3 w := by
  rcases step_next_cases h with ⟨-, ht⟩ | ⟨w, rest, u, hw, hu, ht⟩
  · exact absurd (by rw [ht]) hne
  · rw [ht, State.setSram_regs] at hne
    have hex := mt (exec_regs hu) hne
    push Not at hex
    obtain ⟨hwin, hmode⟩ := hex
    refine ⟨?_, w, hw, writeWindow_decode_eq_some.1 hwin⟩
    simpa [Instr.allowedIn, hmode] using allowedIn_decode (ra := s.registersActive) (w := w)

/-- Settles O45: the writer is found by the step's cases, the readers by running each on another register file. -/
theorem registerAccessRights : Obligations.RegisterAccessRights := by
  unfold Obligations.RegisterAccessRights
  exact ⟨fun _ _ => step_regs_ne, fun _ _ _ => exec_withRegs, fun _ _ => capture_withRegs⟩

end Sys2Proof.Machine
end

section
/-! PROOF. The mode bit in the decoder (30_encoding.md R71). -/

namespace Sys2Proof.Machine

variable {ra rb : Bool} {w : TWord}

/-- The write rows of window 5: the RAM mode's one row, and the register-active mode's two. -/
theorem decodeWrite_windowFive (h : fieldWin w = 5#3) : decodeWrite ra w =
    if ra = false then .wrCamIgnored (fieldOff w) (fieldD w)
    else if fieldM7 w = 0#7 ∧ (fieldD w).getLsbD 0 = true then .wrCamTrigger (fieldIgn w) (fieldD w)
    else .wrCamReg (fieldIgn w) (fieldM7 w) (fieldD w) := by
  simp [decodeWrite, h]

/-- The read rows of window 5, divided in the same way. -/
theorem decodeRead_windowFive (h : fieldWin w = 5#3) : decodeRead ra w =
    if ra = false then .rdCamRam (fieldOff w)
    else if fieldM7 w = 0#7 then .rdCamCtrl (fieldIgn w)
    else .rdCamZero (fieldIgn w) (fieldM7 w) := by
  simp [decodeRead, h]

/-- Every row of window 5, write or read, needs the mode it is decoded in (R74). -/
theorem neededMode_decode_windowFive (h : fieldWin w = 5#3) : (decode ra w).neededMode = some ra := by
  rw [decode, decodeWrite_windowFive h, decodeRead_windowFive h]
  cases ra
  case false =>
    simp only [if_true]
    split <;> rfl
  case true =>
    simp only [reduceCtorEq, if_false]
    split_ifs <;> rfl

/-- Outside window 5 the decoder does not look at the mode. -/
theorem decode_eq_decode_of_windowFive_ne (h : fieldWin w ≠ 5#3) : decode ra w = decode rb w := by
  simp only [decode, decodeWrite, decodeRead, h, if_false]

/-- Settles O5: the rows of window 5 need the mode they are decoded in, so the two modes take different rows. -/
theorem modeMattersInWindow5Only : Obligations.ModeMattersInWindow5Only := by
  unfold Obligations.ModeMattersInWindow5Only
  refine fun w => ⟨fun h heq => ?_, decode_eq_decode_of_windowFive_ne⟩
  have hmode : some true = some false := by
    rw [← neededMode_decode_windowFive (ra := true) h, heq, neededMode_decode_windowFive h]
  cases hmode

end Sys2Proof.Machine
end

section
/-! SUPPORT. The rows of the bus writes (30_encoding.md R74): when a word fits a mask that tests the window, or the window
and the value, and which row each window's words decode to. -/

namespace Sys2Proof

open Machine (isWriteTo)

/-! ### Fitting a mask -/

section Fit

variable {t : TWord} {rw mr : Bool} {a ma : Word16} {d md : Byte}

/-- A mask is laid out like T, so it is compared field by field (R70). -/
theorem and_busWord_eq_iff : t &&& busWord mr ma md = busWord rw a d ↔
    (fieldRw t && mr) = rw ∧ fieldA t &&& ma = a ∧ fieldD t &&& md = d := by
  have hrw : fieldRw (t &&& busWord mr ma md) = (fieldRw t && mr) := by
    rw [fieldRw, BitVec.getLsbD_and, ← fieldRw, ← fieldRw, fieldRw_busWord]
  have ha : fieldA (t &&& busWord mr ma md) = fieldA t &&& ma := by
    rw [fieldA, BitVec.extractLsb'_and, ← fieldA, ← fieldA, fieldA_busWord]
  have hd : fieldD (t &&& busWord mr ma md) = fieldD t &&& md := by
    rw [fieldD, BitVec.extractLsb'_and, ← fieldD, ← fieldD, fieldD_busWord]
  constructor
  · intro h
    simp [← hrw, ← ha, ← hd, h]
  · rintro ⟨h1, h2, h3⟩
    exact tword_ext (by simpa [hrw]) (by simpa [ha]) (by simpa [hd])

variable {n : BitVec 3}

/-- A write row whose mask tests RW and WIN alone fits the writes to its window. -/
theorem window_fit_iff : t &&& 0x1E00000#25 = busWord true (n ++ 0#13) 0x00#8 ↔ isWriteTo n t := window_fit

/-- A write row whose mask tests bits of D too fits the writes to its window with those bits as in the match value. -/
theorem windowValue_fit_iff : t &&& busWord true 0xE000#16 md = busWord true (n ++ 0#13) d ↔
    isWriteTo n t ∧ fieldD t &&& md = d := by
  rw [← window_fit_iff, show 0x1E00000#25 = busWord true 0xE000#16 0x00#8 from rfl, and_busWord_eq_iff,
    and_busWord_eq_iff]
  simp [and_assoc]

end Fit

/-! ### The rows of each window -/

section Rows

variable {ra : Bool} {t : TWord} {n : BitVec 3} {i : Instr} {c : Prop}

theorem decode_windowZero (h : isWriteTo 0#3 t) : decode ra t =
    if fieldD t = 0x00#8 then .wrRamDisable (fieldOff t)
    else if fieldD t = 0x0A#8 then .wrRamEnable (fieldOff t)
    else .wrRamCtlIgnored (fieldOff t) (fieldD t) := by
  simp [decode, decodeWrite, h.1, h.2]

theorem decode_windowOne (h : isWriteTo 1#3 t) : decode ra t = .wrRomBank (fieldOff t) (fieldD t) := by
  simp [decode, decodeWrite, h.1, h.2]

theorem decode_windowThree (h : isWriteTo 3#3 t) : decode ra t = .wrNopW3 (fieldOff t) (fieldD t) := by
  simp [decode, decodeWrite, h.1, h.2]

theorem decode_windowFour (h : isWriteTo 4#3 t) : decode ra t = .wrNopW4 (fieldOff t) (fieldD t) := by
  simp [decode, decodeWrite, h.1, h.2]

theorem decode_windowSix (h : isWriteTo 6#3 t) : decode ra t = .wrNopW6 (fieldOff t) (fieldD t) := by
  simp [decode, decodeWrite, h.1, h.2]

theorem decode_windowSeven (h : isWriteTo 7#3 t) : decode ra t = .wrNopW7 (fieldOff t) (fieldD t) := by
  simp [decode, decodeWrite, h.1, h.2]

/-- What decodes to a write row is a write to the row's window; so the row's own condition needs a proof only among the
writes to that window. -/
theorem window_and_iff_decode_eq (hi : i.writeWindow = some n) (h : isWriteTo n t → (c ↔ decode ra t = i)) :
    isWriteTo n t ∧ c ↔ decode ra t = i := by
  rw [and_congr_right h, and_iff_right_of_imp]
  intro hd
  rwa [← writeWindow_decode_eq_some (ra := ra), hd]

/-- The row of a window that has only one. -/
theorem window_iff_decode_eq (hi : i.writeWindow = some n) (h : isWriteTo n t → decode ra t = i) :
    isWriteTo n t ↔ decode ra t = i := by
  rw [← window_and_iff_decode_eq hi fun hw => iff_of_true trivial (h hw), and_true]

end Rows

end Sys2Proof
end

section
/-! PROOF. The bus writes of windows 0 to 4, 6 and 7, and the register write of window 5 (40_bus_writes.md R100 to R111,
but for R101 and R110). -/

namespace Sys2Proof.Machine

variable {ra : Bool} {t : TWord} {s : State}

/-! ### Window 0: RAM access control -/

/-- Without RAM the access is disabled already (R205). -/
theorem Inv.setRamEnable_false (h : Inv s) (hr : s.config.ramPresent = false) : s.setRamEnable false = s := by
  obtain ⟨-, -, -, -, hen, -, -⟩ := h
  rw [State.setRamEnable, ← hen hr]

/-- Row 1 of R74: the whole of D is tested. -/
theorem decode_eq_wrRamDisable_iff :
    isWriteTo 0#3 t ∧ fieldD t &&& 0xFF#8 = 0x00#8 ↔ decode ra t = .wrRamDisable (fieldOff t) := by
  refine window_and_iff_decode_eq rfl fun h => ?_
  rw [decode_windowZero h, show 0xFF#8 = BitVec.allOnes 8 from rfl, BitVec.and_allOnes]
  split_ifs with h0 hA
  · exact iff_of_true h0 rfl
  · exact iff_of_false h0 nofun
  · exact iff_of_false h0 nofun

/-- Settles O14: the row is window 0 with D = 0x00; without RAM the invariant has ramEnable clear already. -/
theorem ramDisableClearsEnable : Obligations.RamDisableClearsEnable := by
  unfold Obligations.RamDisableClearsEnable
  refine ⟨fun _ _ => rfl, fun ra t => ?_, fun _ _ hI hr => congrArg _ (hI.setRamEnable_false hr)⟩
  exact (windowValue_fit_iff (n := 0#3) (md := 0xFF#8) (d := 0x00#8)).trans decode_eq_wrRamDisable_iff

/-- Row 3 of R74, after rows 1 and 2. -/
theorem decode_eq_wrRamCtlIgnored_iff :
    isWriteTo 0#3 t ∧ fieldD t ≠ 0x00#8 ∧ fieldD t ≠ 0x0A#8 ↔
      decode ra t = .wrRamCtlIgnored (fieldOff t) (fieldD t) := by
  refine window_and_iff_decode_eq rfl fun h => ?_
  rw [decode_windowZero h]
  split_ifs with h0 hA
  · exact iff_of_false (fun hc => hc.1 h0) nofun
  · exact iff_of_false (fun hc => hc.2 hA) nofun
  · exact iff_of_true ⟨h0, hA⟩ rfl

/-- Settles O16: the row is what rows 1 and 2 leave of window 0. -/
theorem unrecognizedControlValueReported : Obligations.UnrecognizedControlValueReported := by
  unfold Obligations.UnrecognizedControlValueReported
  refine ⟨fun _ _ _ => rfl, fun ra t => ?_⟩
  exact (and_congr_left' (window_fit_iff (n := 0#3))).trans decode_eq_wrRamCtlIgnored_iff

/-! ### Windows 1 and 2: bank selection and register-active mode -/

/-- The ROM bank number is D & 0x3F (R72, R102). -/
theorem toNat_romBankOf (d : Byte) : (romBankOf d).toNat = (d &&& 0x3F#8).toNat := by
  rw [romBankOf, BitVec.extractLsb'_toNat, BitVec.toNat_and, Nat.shiftRight_zero]
  exact (Nat.and_two_pow_sub_one_eq_mod d.toNat 6).symm

/-- Settles O17: the event's bank is D[5:0], and window 1 has one row. -/
theorem romBankSelected : Obligations.RomBankSelected := by
  unfold Obligations.RomBankSelected
  refine ⟨fun _ d _ => ⟨romBankOf d, toNat_romBankOf d, rfl⟩, fun ra t => ?_⟩
  exact (window_fit_iff (n := 1#3)).trans (window_iff_decode_eq rfl decode_windowOne)

/-- Row 5 tests D[7:4] = 0, which is D below 0x10. -/
theorem and_highNibble_eq_zero_iff {d : Byte} : d &&& 0xF0#8 = 0x00#8 ↔ d.toNat < 0x10 := by
  revert d
  decide

/-- The words that row 5 of R74 fits. -/
theorem ramBank_fit_iff : t &&& 0x1E000F0#25 = 0x1400000#25 ↔ isWriteTo 2#3 t ∧ (fieldD t).toNat < 0x10 := by
  rw [← and_highNibble_eq_zero_iff]
  exact windowValue_fit_iff (n := 2#3) (md := 0xF0#8) (d := 0x00#8)

/-- Settles O18: the row is window 2 with D below 0x10, so D[3:0] is all of D. -/
theorem ramBankSelected : Obligations.RamBankSelected := by
  unfold Obligations.RamBankSelected
  refine ⟨fun _ _ _ => rfl, fun ra t => ?_, fun t h => (ramBank_fit_iff.1 h).2⟩
  refine ramBank_fit_iff.trans (window_and_iff_decode_eq rfl fun h => ?_)
  rw [decode_windowTwo h]
  split_ifs with hd
  · exact iff_of_true hd rfl
  · exact iff_of_false hd nofun

/-- Settles O19: the row is what row 5 leaves of window 2. -/
theorem registerModeEntered : Obligations.RegisterModeEntered := by
  unfold Obligations.RegisterModeEntered
  refine ⟨fun _ _ _ => rfl, fun ra t => ?_⟩
  refine (and_congr_left' (window_fit_iff (n := 2#3))).trans (window_and_iff_decode_eq rfl fun h => ?_)
  rw [decode_windowTwo h]
  split_ifs with hd
  · exact iff_of_false (by omega) nofun
  · exact iff_of_true (by omega) rfl

/-! ### Windows 3, 4, 6 and 7: nothing there -/

/-- Settles O20: the four windows have one row each, and the four rows one effect. -/
theorem unmappedWritesReported : Obligations.UnmappedWritesReported := by
  unfold Obligations.UnmappedWritesReported
  refine ⟨fun _ _ _ => ⟨rfl, rfl, rfl, rfl⟩, fun ra t => ⟨?_, ?_, ?_, ?_⟩⟩
  · exact (window_fit_iff (n := 3#3)).trans (window_iff_decode_eq rfl decode_windowThree)
  · exact (window_fit_iff (n := 4#3)).trans (window_iff_decode_eq rfl decode_windowFour)
  · exact (window_fit_iff (n := 6#3)).trans (window_iff_decode_eq rfl decode_windowSix)
  · exact (window_fit_iff (n := 7#3)).trans (window_iff_decode_eq rfl decode_windowSeven)

/-! ### Window 5: register writes -/

/-- A register read after a write inside the file. -/
theorem State.reg_setReg {i j : Nat} {v : Byte} (h : i < s.regs.length) :
    (s.setReg i v).reg j = if j = i then v else s.reg j := by
  unfold State.reg
  rw [State.setReg_regs, List.getD_eq_getElem?_getD, List.getD_eq_getElem?_getD]
  split_ifs with hj
  · rw [hj, List.getElem?_set_self h, Option.getD_some]
  · rw [List.getElem?_set_ne (Ne.symm hj)]

theorem exec_wrCamReg_stored {ign : BitVec 6} {r : BitVec 7} {d : Byte} (h : r.toNat < s.config.regCount) :
    exec (.wrCamReg ign r d) s = .next (s.setReg r.toNat d) := if_pos h

theorem exec_wrCamReg_dropped {ign : BitVec 6} {r : BitVec 7} {d : Byte} (h : s.config.regCount ≤ r.toNat) :
    exec (.wrCamReg ign r d) s = .next s := if_neg (Nat.not_lt.2 h)

/-- Row 11 of R74, after row 10. -/
theorem decode_eq_wrCamReg_iff :
    isWriteTo 5#3 t ∧ ra = true ∧ ¬ (fieldM7 t = 0#7 ∧ (fieldD t).getLsbD 0 = true) ↔
      decode ra t = .wrCamReg (fieldIgn t) (fieldM7 t) (fieldD t) := by
  refine window_and_iff_decode_eq rfl fun ⟨hrw, hwin⟩ => ?_
  rw [decode, if_pos hrw, decodeWrite_windowFive hwin]
  split_ifs with hra htrig
  · exact iff_of_false (fun h => absurd h.1 (by simp [hra])) nofun
  · exact iff_of_false (fun h => h.2 htrig) nofun
  · exact iff_of_true ⟨eq_true_of_ne_false hra, htrig⟩ rfl

/-- Settles O22: the write is the file's own update inside the file, and no update outside it; the row is what rows 9 and
10 leave of window 5. -/
theorem registerWriteStoresOrDrops : Obligations.RegisterWriteStoresOrDrops := by
  unfold Obligations.RegisterWriteStoresOrDrops
  refine ⟨fun ign r d s hlen => ⟨fun hr => ?_, exec_wrCamReg_dropped⟩, fun ra t => ?_⟩
  · refine ⟨(s.setReg r.toNat d).regs, exec_wrCamReg_stored hr, ?_, fun i => ?_⟩
    · rw [State.setReg_regs, List.length_set, hlen]
    · exact State.reg_setReg (by omega)
  · exact (and_congr_left' (window_fit_iff (n := 5#3))).trans decode_eq_wrCamReg_iff

end Sys2Proof.Machine
end

section
/-! SUPPORT. The rows of the bus reads of window 5 (30_encoding.md R71, R74). -/

namespace Sys2Proof.Machine

variable {ra b : Bool} {t : TWord} {i : Instr} {c : Prop}

/-- The mask of rows 14 and 16 of R74 fits the reads of window 5. -/
theorem windowFiveRead_fit_iff : t &&& 0x1E00000#25 = 0x0A00000#25 ↔ fieldRw t = false ∧ fieldWin t = 5#3 :=
  window_fit (rw := false) (w := 5#3)

/-- Only window 5 has rows that need a mode: the other words decode alike in the mode the row does not allow. -/
theorem fieldWin_of_neededMode_decode (h : (decode ra t).neededMode = some b) : fieldWin t = 5#3 := by
  by_contra hwin
  have heq : decode (!ra) t = decode ra t := decode_eq_decode_of_windowFive_ne hwin
  have hra : (decode ra t).allowedIn ra = true := allowedIn_decode
  have hnot : (decode ra t).allowedIn (!ra) = true := heq ▸ allowedIn_decode
  simp only [Instr.allowedIn, h, beq_iff_eq] at hra hnot
  exact (Bool.eq_not_self ra).1 (hra.symm.trans hnot)

/-- A row that no write decodes to is a read's row. -/
theorem fieldRw_of_writeWindow_decode (h : (decode ra t).writeWindow = none) : fieldRw t = false := by
  refine eq_false_of_ne_true fun hrw => ?_
  rw [writeWindow_decode_eq_some.2 ⟨hrw, rfl⟩] at h
  cases h

/-- What decodes to a read row that needs a mode is a read of window 5; so the row's own condition needs a proof only
among those reads. -/
theorem windowFiveRead_and_iff_decode_eq (hw : i.writeWindow = none) (hm : i.neededMode = some b)
    (h : fieldRw t = false ∧ fieldWin t = 5#3 → (c ↔ decode ra t = i)) :
    (fieldRw t = false ∧ fieldWin t = 5#3) ∧ c ↔ decode ra t = i := by
  rw [and_congr_right h, and_iff_right_of_imp]
  rintro rfl
  exact ⟨fieldRw_of_writeWindow_decode hw, fieldWin_of_neededMode_decode hm⟩

end Sys2Proof.Machine
end

section
/-! PROOF. The bus reads of window 5 in register-active mode (41_bus_reads.md R131). -/

namespace Sys2Proof.Machine

variable {ra : Bool} {t : TWord}

/-- Row 16 of R74, after row 15. -/
theorem decode_eq_rdCamZero_iff : (fieldRw t = false ∧ fieldWin t = 5#3) ∧ fieldM7 t ≠ 0#7 ∧ ra = true ↔
    decode ra t = .rdCamZero (fieldIgn t) (fieldM7 t) := by
  refine windowFiveRead_and_iff_decode_eq rfl rfl fun ⟨hrw, hwin⟩ => ?_
  rw [decode, if_neg (by simp [hrw]), decodeRead_windowFive hwin]
  split_ifs with hra hm
  · exact iff_of_false (fun h => absurd h.2 (by simp [hra])) nofun
  · exact iff_of_false (fun h => h.1 hm) nofun
  · exact iff_of_true ⟨hm, eq_true_of_ne_false hra⟩ rfl

/-- Settles O40: the effect is the constant answer 0x00, with no register looked at; the row is what rows 14 and 15 leave
of the reads of window 5. -/
theorem otherRegistersReadZero : Obligations.OtherRegistersReadZero := by
  unfold Obligations.OtherRegistersReadZero
  refine ⟨fun _ _ _ => rfl, fun ra t => ?_⟩
  exact (and_congr_left' windowFiveRead_fit_iff).trans decode_eq_rdCamZero_iff

end Sys2Proof.Machine
end

section
/-! SUPPORT. What a trigger write answers where its capture completes, and what a capture of a frame in an unsupported
format answers (40_bus_writes.md R110, 42_capture.md R146). -/

namespace Sys2Proof.Machine

variable {s u : State} {f : Frame}

/-- A trigger write whose capture completes stores D & 0x06 in what the capture leaves (R110). -/
theorem exec_wrCamTrigger_of_capture (ign : BitVec 6) (d : Byte) (h : capture (s.setDirty true) = .next u) :
    exec (.wrCamTrigger ign d) s = .next (u.setReg 0 (triggerStored d)) := by
  rw [exec, execWrCamTrigger, h, andThen_next]

/-- The buffer is zeroed before the format check fails, and nothing is packed after it (R142, R146). -/
theorem capture_unsupported (h : s.requestedImage = some f) (hr : s.config.ramPresent = true)
    (hb : 0xF00 ≤ s.config.ramBytes) (hf : f.fmt ∉ s.config.formats) :
    capture s = .next ((s.afterRequest.setSram (zeroBuffer s.sram)).emit (.diag .unsupportedFormat)) := by
  have hzero : captureFrame f s.afterRequest = captureZeroed f (s.afterRequest.setSram (zeroBuffer s.sram)) :=
    captureFrame_withRam hr hb
  rw [capture_some h, hzero]
  exact captureZeroed_unsupported hf

end Sys2Proof.Machine
end

section
/-! PROOF. Trigger writes that pack no picture (42_capture.md R145, R146). -/

namespace Sys2Proof.Machine

/-- Settles O24: with no frame the capture only uses up the answer, and the trigger write stores CTRL after it. -/
theorem triggerWithoutFrame : Obligations.TriggerWithoutFrame := by
  unfold Obligations.TriggerWithoutFrame
  intro ign d s hnone
  exact exec_wrCamTrigger_of_capture ign d (capture_none (s := s.setDirty true) hnone)

/-- Settles O25: the memory left is the zeroed buffer, and the invariant gives the capture room for it. -/
theorem triggerWithUnsupportedFormat : Obligations.TriggerWithUnsupportedFormat := by
  unfold Obligations.TriggerWithUnsupportedFormat
  intro ign d s f hI hsome hram hfmt
  have hcapture := capture_unsupported (s := s.setDirty true) hsome hram hI.bufferFits hfmt
  exact ⟨zeroBuffer s.sram, exec_wrCamTrigger_of_capture ign d hcapture, zeroBuffer_wf hI.sramWf,
    fun _ => read_zeroBuffer hI.sramWf⟩

end Sys2Proof.Machine
end

section
/-! SUPPORT. What the quantizer's cascade gives (43_quantizer.md R165): the four branches, each with the tests that lead
to it. -/

namespace Sys2Proof.Machine

variable (adj : Nat) (d m l : Byte)

/-- The four branches of the cascade shut each other out: a test is reached only when those before it failed (R165). -/
theorem quant_cases :
    (adj < d.toNat ∧ quant adj d m l = .c101) ∨
    (d.toNat ≤ adj ∧ adj < m.toNat ∧ quant adj d m l = .c100) ∨
    (d.toNat ≤ adj ∧ m.toNat ≤ adj ∧ adj < l.toNat ∧ quant adj d m l = .c001) ∨
    (d.toNat ≤ adj ∧ m.toNat ≤ adj ∧ l.toNat ≤ adj ∧ quant adj d m l = .c000) := by
  unfold quant
  split
  next hd => exact .inl ⟨hd, rfl⟩
  next hd =>
    split
    next hm => exact .inr (.inl ⟨not_lt.mp hd, hm, rfl⟩)
    next hm =>
      split
      next hl => exact .inr (.inr (.inl ⟨not_lt.mp hd, not_lt.mp hm, hl, rfl⟩))
      next hl => exact .inr (.inr (.inr ⟨not_lt.mp hd, not_lt.mp hm, not_lt.mp hl, rfl⟩))

/-- A code is given exactly under the tests of its own branch (R165). -/
theorem quant_eq_iff :
    (quant adj d m l = .c101 ↔ adj < d.toNat) ∧
    (quant adj d m l = .c100 ↔ d.toNat ≤ adj ∧ adj < m.toNat) ∧
    (quant adj d m l = .c001 ↔ d.toNat ≤ adj ∧ m.toNat ≤ adj ∧ adj < l.toNat) ∧
    (quant adj d m l = .c000 ↔ d.toNat ≤ adj ∧ m.toNat ≤ adj ∧ l.toNat ≤ adj) := by
  obtain ⟨hd, hq⟩ | ⟨hd, hm, hq⟩ | ⟨hd, hm, hl, hq⟩ | ⟨hd, hm, hl, hq⟩ := quant_cases adj d m l
  · simp [hq, hd, hd.not_ge]
  · simp [hq, hd, hm, hm.not_ge]
  · simp [hq, hd, hm, hl, hl.not_ge]
  · simp [hq, hd, hm, hl]

end Sys2Proof.Machine
end

section
/-! PROOF. The quantizer's cascade (43_quantizer.md R165). -/

namespace Sys2Proof.Machine

/-- Settles O34: each code has its own branch of the cascade, and the patterns are the codes' definitions (R168). -/
theorem quantizerCascade : Obligations.QuantizerCascade := by
  unfold Obligations.QuantizerCascade
  intro adj d m l
  obtain ⟨h101, h100, h001, h000⟩ := quant_eq_iff adj d m l
  exact ⟨h101, h100, h001, h000, rfl, rfl, rfl, rfl⟩

end Sys2Proof.Machine
end

section
/-! SUPPORT. The word that a 16-bit little-endian load gives after a 16-bit store (00_scope.md R10) and after a PACK
(44_tile_packer.md R183). -/

namespace Sys2Proof.Machine

variable {m : Memory} {a x y : Nat} {w : Word16} {c : Code}

/-- The two bytes of a word, the high one above the low one, are the word (R10). -/
theorem highByte_append_lowByte : w.extractLsb' 8 8 ++ w.extractLsb' 0 8 = w :=
  (BitVec.extractLsb'_append_extractLsb'_eq_extractLsb' (x := w) rfl).trans BitVec.extractLsb'_eq_self

/-- A 16-bit load at the address of a 16-bit store gives the word stored (R10). -/
theorem read16_write16_same (h : m.wf = true) : (m.write16 a w).read16 a = w := by
  have hlow : (m.write16 a w).read a = w.extractLsb' 0 8 := by simp [Memory.read_write16 h]
  have hhigh : (m.write16 a w).read (a + 1) = w.extractLsb' 8 8 := by simp [Memory.read_write16 h]
  rw [Memory.read16, hlow, hhigh, highByte_append_lowByte]

/-- After PACK the pixel's word is the old one OR-ed with the shifted code (R183). -/
theorem read16_pack (h : m.wf = true) :
    (pack x y c m).read16 (pixelAddr x y) = m.read16 (pixelAddr x y) ||| codePattern c <<< pixelShift x :=
  read16_write16_same h

end Sys2Proof.Machine
end

section
/-! PROOF. PACK (44_tile_packer.md R183). -/

namespace Sys2Proof.Machine

/-- Settles O33: the statement spells out `pixelAddr` (R180) and `pixelShift` (R182), and PACK is one 16-bit store
there. -/
theorem packOrsOneWord : Obligations.PackOrsOneWord := by
  unfold Obligations.PackOrsOneWord
  intro x y c m hwf
  exact ⟨pack_wf hwf, read16_pack hwf, fun _ => pack_other hwf⟩

end Sys2Proof.Machine
end

section
/-! SUPPORT. The fields of a word whose address is put together from a window and an offset, or from a window, the
ignored bits and a register number (30_encoding.md R70), and the rows such words decode to. -/

namespace Sys2Proof

open Machine (isWriteTo decodeWrite_windowFive decodeRead_windowFive)

section Fields

variable {rw : Bool} {n : BitVec 3} {off : BitVec 13} {ign : BitVec 6} {r : BitVec 7} {d : Byte}

theorem fieldWin_busWord_offset : fieldWin (busWord rw (n ++ off) d) = n := by
  rw [fieldWin_busWord]
  exact BitVec.extractLsb'_append_eq_left

theorem fieldOff_busWord_offset : fieldOff (busWord rw (n ++ off) d) = off := by
  rw [fieldOff_busWord]
  exact BitVec.extractLsb'_append_eq_right

theorem fieldWin_busWord_register : fieldWin (busWord rw (n ++ ign ++ r) d) = n := by
  rw [fieldWin_busWord]
  exact (BitVec.extractLsb'_append_eq_of_le (by omega)).trans BitVec.extractLsb'_append_eq_left

theorem fieldIgn_busWord_register : fieldIgn (busWord rw (n ++ ign ++ r) d) = ign := by
  rw [fieldIgn_busWord]
  exact (BitVec.extractLsb'_append_eq_of_le (by omega)).trans BitVec.extractLsb'_append_eq_right

theorem fieldM7_busWord_register : fieldM7 (busWord rw (n ++ ign ++ r) d) = r := by
  rw [fieldM7_busWord]
  exact BitVec.extractLsb'_append_eq_right

theorem isWriteTo_busWord_offset : isWriteTo n (busWord true (n ++ off) d) := ⟨fieldRw_busWord, fieldWin_busWord_offset⟩

/-- A write to window 5 in register-active mode, from the parts of its address. -/
theorem decode_busWord_write_register : decode true (busWord true (5#3 ++ ign ++ r) d) =
    if r = 0#7 ∧ d.getLsbD 0 = true then .wrCamTrigger ign d else .wrCamReg ign r d := by
  rw [decode, if_pos fieldRw_busWord, decodeWrite_windowFive fieldWin_busWord_register, fieldM7_busWord_register,
    fieldIgn_busWord_register, fieldD_busWord]
  rfl

/-- A read of window 5 in register-active mode, from the parts of its address. -/
theorem decode_busWord_read_register : decode true (busWord false (5#3 ++ ign ++ r) d) =
    if r = 0#7 then .rdCamCtrl ign else .rdCamZero ign r := by
  rw [decode, fieldRw_busWord, decodeRead_windowFive fieldWin_busWord_register, fieldM7_busWord_register,
    fieldIgn_busWord_register]
  rfl

end Fields

/-! ### The address as its parts -/

section Parts

variable {t : TWord} {rw : Bool} {n : BitVec 3} {d md : Byte}

theorem fieldA_eq_offset : fieldA t = fieldWin t ++ fieldOff t :=
  (BitVec.extractLsb'_append_extractLsb'_eq_extractLsb' (start₁ := 8) (len₁ := 13) (len₂ := 3) rfl).symm

theorem fieldA_eq_register : fieldA t = fieldWin t ++ fieldIgn t ++ fieldM7 t := by
  have hreg : fieldWin t ++ fieldIgn t = t.extractLsb' 15 9 :=
    BitVec.extractLsb'_append_extractLsb'_eq_extractLsb' (start₁ := 15) (len₁ := 6) (len₂ := 3) rfl
  rw [hreg]
  exact (BitVec.extractLsb'_append_extractLsb'_eq_extractLsb' (start₁ := 8) (len₁ := 7) (len₂ := 9) rfl).symm

theorem fieldA_eq_lowRead : fieldA t = t.extractLsb' 23 1 ++ t.extractLsb' 8 15 :=
  (BitVec.extractLsb'_append_extractLsb'_eq_extractLsb' (start₁ := 8) (len₁ := 15) (len₂ := 1) rfl).symm

theorem fieldA_eq_highRead : fieldA t = t.extractLsb' 22 2 ++ t.extractLsb' 8 14 :=
  (BitVec.extractLsb'_append_extractLsb'_eq_extractLsb' (start₁ := 8) (len₁ := 14) (len₂ := 2) rfl).symm

/-- A mask is compared part by part. -/
theorem append_and_eq_append_iff {v w : Nat} {x m p : BitVec v} {y k q : BitVec w} :
    (x ++ y) &&& (m ++ k) = p ++ q ↔ x &&& m = p ∧ y &&& k = q := by
  rw [BitVec.and_append]
  constructor
  · intro h
    have hhigh := congrArg (BitVec.extractLsb' w v) h
    have hlow := congrArg (BitVec.extractLsb' 0 w) h
    rw [BitVec.extractLsb'_append_eq_left, BitVec.extractLsb'_append_eq_left] at hhigh
    rw [BitVec.extractLsb'_append_eq_right, BitVec.extractLsb'_append_eq_right] at hlow
    exact ⟨hhigh, hlow⟩
  · rintro ⟨rfl, rfl⟩
    rfl

/-- A mask that tests RW, the window and bits of D: the rows of R74 but 10, 15, 17 and 19. -/
theorem offset_fit_iff : t &&& busWord true 0xE000#16 md = busWord rw (n ++ 0#13) d ↔
    (fieldRw t = rw ∧ fieldWin t = n) ∧ fieldD t &&& md = d := by
  have hA : fieldA t &&& 0xE000#16 = n ++ 0#13 ↔ fieldWin t = n := by
    rw [fieldA_eq_offset]
    exact (append_and_eq_append_iff (m := BitVec.allOnes 3) (k := 0#13)).trans
      (by simp only [BitVec.and_allOnes, BitVec.and_zero, and_true])
  rw [and_busWord_eq_iff, Bool.and_true, hA]
  simp only [and_assoc]

/-- The mask of rows 10 and 15 of R74 tests RW, the window, the masked address and bits of D. -/
theorem register_fit_iff : t &&& busWord true 0xE07F#16 md = busWord rw (n ++ 0#6 ++ 0#7) d ↔
    (fieldRw t = rw ∧ fieldWin t = n) ∧ fieldM7 t = 0#7 ∧ fieldD t &&& md = d := by
  have hA : fieldA t &&& 0xE07F#16 = n ++ 0#6 ++ 0#7 ↔ fieldWin t = n ∧ fieldM7 t = 0#7 := by
    rw [fieldA_eq_register]
    have hwin : (fieldWin t ++ fieldIgn t) &&& 0x1C0#9 = n ++ 0#6 ↔ fieldWin t = n :=
      (append_and_eq_append_iff (m := BitVec.allOnes 3) (k := 0#6)).trans
        (by simp only [BitVec.and_allOnes, BitVec.and_zero, and_true])
    exact (append_and_eq_append_iff (m := 0x1C0#9) (k := BitVec.allOnes 7)).trans
      (and_congr hwin (by rw [BitVec.and_allOnes]))
  rw [and_busWord_eq_iff, Bool.and_true, hA]
  simp only [and_assoc]

theorem fieldWin_topBit : (fieldWin t).getLsbD 2 = false ↔ t.extractLsb' 23 1 = 0#1 := by
  simp [fieldWin, BitVec.eq_of_getLsbD_eq_iff]

/-- The mask of row 17 of R74 tests RW and the top bit of the window. -/
theorem lowWindow_fit_iff : t &&& busWord true 0x8000#16 0x00#8 = busWord false 0x0000#16 0x00#8 ↔
    fieldRw t = false ∧ (fieldWin t).getLsbD 2 = false := by
  have hA : fieldA t &&& 0x8000#16 = 0x0000#16 ↔ (fieldWin t).getLsbD 2 = false := by
    rw [fieldA_eq_lowRead, fieldWin_topBit]
    exact (append_and_eq_append_iff (m := BitVec.allOnes 1) (k := 0#15) (p := 0#1) (q := 0#15)).trans
      (by simp only [BitVec.and_allOnes, BitVec.and_zero, and_true])
  rw [and_busWord_eq_iff, Bool.and_true, hA]
  simp only [BitVec.and_zero, and_true]

/-- The mask of row 19 of R74 tests RW and the two top bits of the window. -/
theorem highWindow_fit_iff : t &&& busWord true 0xC000#16 0x00#8 = busWord false 0xC000#16 0x00#8 ↔
    fieldRw t = false ∧ t.extractLsb' 22 2 = 3#2 := by
  have hA : fieldA t &&& 0xC000#16 = 0xC000#16 ↔ t.extractLsb' 22 2 = 3#2 := by
    rw [fieldA_eq_highRead]
    exact (append_and_eq_append_iff (m := BitVec.allOnes 2) (k := 0#14) (p := 3#2) (q := 0#14)).trans
      (by simp only [BitVec.and_allOnes, BitVec.and_zero, and_true])
  rw [and_busWord_eq_iff, Bool.and_true, hA]
  simp only [BitVec.and_zero, and_true]

end Parts

/-! ### The reads outside window 5 (R133) -/

section UnroutedReads

variable {ra : Bool} {t : TWord}

theorem decodeRead_lowWindow (h : (fieldWin t).getLsbD 2 = false) :
    decodeRead ra t = .rdUnroutedLo (t.extractLsb' 8 15) := by
  have h5 : fieldWin t ≠ 5#3 := fun h' => by simp [h'] at h
  have h4 : fieldWin t ≠ 4#3 := fun h' => by simp [h'] at h
  simp only [decodeRead, h5, h4, h, if_false, if_true]

theorem decodeRead_windowFour (h : fieldWin t = 4#3) : decodeRead ra t = .rdUnroutedW4 (fieldOff t) := by
  simp [decodeRead, h]

theorem topBits_eq_fieldWin_topBits : t.extractLsb' 22 2 = (fieldWin t).extractLsb' 1 2 := by
  apply BitVec.eq_of_getLsbD_eq
  intro i hi
  simp [fieldWin, hi, show 1 + i < 3 by omega, show 21 + (1 + i) = 22 + i by omega]

/-- The windows that a read's row tests for: 5, 4, the low half, and the top quarter, windows 6 and 7. -/
theorem fieldWin_cases : fieldWin t = 5#3 ∨ fieldWin t = 4#3 ∨ (fieldWin t).getLsbD 2 = false ∨
    t.extractLsb' 22 2 = 3#2 := by
  rw [topBits_eq_fieldWin_topBits]
  generalize fieldWin t = n
  revert n
  decide

theorem topBits_eq_three_iff : t.extractLsb' 22 2 = 3#2 ↔ fieldWin t = 6#3 ∨ fieldWin t = 7#3 := by
  rw [topBits_eq_fieldWin_topBits]
  generalize fieldWin t = n
  revert n
  decide

theorem decodeRead_highWindow (h : t.extractLsb' 22 2 = 3#2) :
    decodeRead ra t = .rdUnroutedHi (t.extractLsb' 8 14) := by
  obtain h6 | h7 := topBits_eq_three_iff.1 h
  · simp [decodeRead, h6]
  · simp [decodeRead, h7]

end UnroutedReads

end Sys2Proof
end

section
/-! PROOF. Encoding and decoding undo each other (30_encoding.md R70, R74). -/

namespace Sys2Proof

open Machine (decodeWrite_windowFive decodeRead_windowFive)

/-! ### Decoding an encoded instruction -/

section DecodeEncode

variable {i : Instr} {ra : Bool}

/-- The rows of windows 0 to 4, 6 and 7 are told apart by the window and D alone. -/
theorem decode_encode_of_write (hi : i.wellFormed = true) (hw : i.isRead = false) (hm : i.neededMode = none) :
    decode ra (encode i) = i := by
  cases i
  case wrRamDisable off =>
    rw [encode, decode_windowZero isWriteTo_busWord_offset, fieldD_busWord, fieldOff_busWord_offset]
    rfl
  case wrRamEnable off =>
    rw [encode, decode_windowZero isWriteTo_busWord_offset, fieldD_busWord, fieldOff_busWord_offset]
    rfl
  case wrRamCtlIgnored off d =>
    obtain ⟨h0, hA⟩ : d ≠ 0x00#8 ∧ d ≠ 0x0A#8 := by simpa [Instr.wellFormed] using hi
    rw [encode, decode_windowZero isWriteTo_busWord_offset, fieldD_busWord, fieldOff_busWord_offset, if_neg h0,
      if_neg hA]
  case wrRomBank off d =>
    rw [encode, decode_windowOne isWriteTo_busWord_offset, fieldD_busWord, fieldOff_busWord_offset]
  case wrRamBank off bank =>
    have hd : (0#4 ++ bank : Byte).toNat < 0x10 := highNibble_eq_zero_iff.1 BitVec.extractLsb'_append_eq_left
    rw [encode, decode_windowTwo isWriteTo_busWord_offset, fieldD_busWord, fieldOff_busWord_offset, if_pos hd]
    exact congrArg _ BitVec.extractLsb'_append_eq_right
  case wrRegMode off d =>
    have hd : ¬ d.toNat < 0x10 := by simpa [Instr.wellFormed, ← highNibble_eq_zero_iff] using hi
    rw [encode, decode_windowTwo isWriteTo_busWord_offset, fieldD_busWord, fieldOff_busWord_offset, if_neg hd]
  case wrNopW3 off d =>
    rw [encode, decode_windowThree isWriteTo_busWord_offset, fieldD_busWord, fieldOff_busWord_offset]
  case wrNopW4 off d =>
    rw [encode, decode_windowFour isWriteTo_busWord_offset, fieldD_busWord, fieldOff_busWord_offset]
  case wrNopW6 off d =>
    rw [encode, decode_windowSix isWriteTo_busWord_offset, fieldD_busWord, fieldOff_busWord_offset]
  case wrNopW7 off d =>
    rw [encode, decode_windowSeven isWriteTo_busWord_offset, fieldD_busWord, fieldOff_busWord_offset]
  all_goals contradiction

/-- The rows of window 5 are told apart by the mode, the masked address and, for a write, bit 0 of D. -/
theorem decode_encode_of_camera (hi : i.wellFormed = true) (hm : i.neededMode = some ra) :
    decode ra (encode i) = i := by
  cases i
  case wrCamIgnored off d =>
    cases hm
    rw [encode, decode, if_pos fieldRw_busWord, decodeWrite_windowFive fieldWin_busWord_offset, fieldD_busWord,
      fieldOff_busWord_offset, if_pos rfl]
  case wrCamTrigger ign d =>
    cases hm
    exact decode_busWord_write_register.trans (if_pos ⟨rfl, hi⟩)
  case wrCamReg ign r d =>
    cases hm
    exact decode_busWord_write_register.trans (if_neg (by simpa [Instr.wellFormed, imp_iff_not_or] using hi))
  case rdCamRam off =>
    cases hm
    rw [encode, decode, fieldRw_busWord, decodeRead_windowFive fieldWin_busWord_offset, fieldOff_busWord_offset]
    rfl
  case rdCamCtrl ign =>
    cases hm
    exact decode_busWord_read_register.trans (if_pos rfl)
  case rdCamZero ign r =>
    cases hm
    exact decode_busWord_read_register.trans (if_neg (by simpa [Instr.wellFormed] using hi))
  all_goals contradiction

/-- The rows of the other windows' reads are told apart by the window. -/
theorem decode_encode_of_unroutedRead (hr : i.isRead = true) (hm : i.neededMode = none) :
    decode ra (encode i) = i := by
  cases i
  case rdUnroutedLo a =>
    have hwin : (fieldWin (busWord false (0#1 ++ a) 0x00#8)).getLsbD 2 = false := by
      rw [fieldWin_busWord, BitVec.getLsbD_extractLsb', BitVec.getLsbD_append]
      rfl
    rw [encode, decode, fieldRw_busWord, if_neg Bool.false_ne_true, decodeRead_lowWindow hwin]
    exact congrArg _ ((busWord_extract (lo := 0) (by omega)).trans BitVec.extractLsb'_append_eq_right)
  case rdUnroutedW4 off =>
    rw [encode, decode, fieldRw_busWord, if_neg Bool.false_ne_true, decodeRead_windowFour fieldWin_busWord_offset,
      fieldOff_busWord_offset]
  case rdUnroutedHi a =>
    have htop : (busWord false (3#2 ++ a) 0x00#8).extractLsb' 22 2 = 3#2 :=
      (busWord_extract (lo := 14) (by omega)).trans BitVec.extractLsb'_append_eq_left
    rw [encode, decode, fieldRw_busWord, if_neg Bool.false_ne_true, decodeRead_highWindow htop]
    exact congrArg _ ((busWord_extract (lo := 0) (by omega)).trans BitVec.extractLsb'_append_eq_right)
  all_goals contradiction

/-- Settles O1: each of the three kinds of row looks only at fields that the encoder has put into the word. -/
theorem decodeOfEncode : Obligations.DecodeOfEncode := by
  unfold Obligations.DecodeOfEncode
  intro i ra hi hm
  cases hneed : i.neededMode with
  | some m =>
    obtain rfl : m = ra := by simpa [Instr.allowedIn, hneed] using hm
    exact decode_encode_of_camera hi hneed
  | none =>
    cases hread : i.isRead with
    | false => exact decode_encode_of_write hi hread hneed
    | true => exact decode_encode_of_unroutedRead hread hneed

end DecodeEncode

/-! ### Encoding a decoded word -/

section EncodeDecode

variable {ra : Bool} {t : TWord}

/-- Each write row puts back the window it was found in and the fields it keeps. -/
theorem encode_decodeWrite : encode (decodeWrite ra t) = busWord true (fieldA t) (fieldD t) := by
  simp only [decodeWrite]
  split_ifs with h0 h00 h0A h1 h2 hbank h3 h4 h5 hra htrig h6
  · rw [encode, fieldA_eq_offset, h0, h00]
  · rw [encode, fieldA_eq_offset, h0, h0A]
  · rw [encode, fieldA_eq_offset, h0]
  · rw [encode, fieldA_eq_offset, h1]
  · have hd : fieldD t = 0#4 ++ (fieldD t).extractLsb' 0 4 := by
      rw [← hbank]
      exact BitVec.extractLsb'_eq_self.symm.trans
        (BitVec.extractLsb'_append_extractLsb'_eq_extractLsb' (start₁ := 0) (len₁ := 4) (len₂ := 4) rfl).symm
    rw [encode, fieldA_eq_offset, h2, ← hd]
  · rw [encode, fieldA_eq_offset, h2]
  · rw [encode, fieldA_eq_offset, h3]
  · rw [encode, fieldA_eq_offset, h4]
  · rw [encode, fieldA_eq_offset, h5]
  · rw [encode, fieldA_eq_register, h5, htrig.1]
  · rw [encode, fieldA_eq_register, h5]
  · rw [encode, fieldA_eq_offset, h6]
  · have h7 : fieldWin t = 7#3 := by bv_omega
    rw [encode, fieldA_eq_offset, h7]

/-- Each read row puts back the window it was found in and the address bits it keeps; D comes back as 0. -/
theorem encode_decodeRead : encode (decodeRead ra t) = busWord false (fieldA t) 0x00#8 := by
  obtain h5 | h4 | hlow | hhigh := fieldWin_cases (t := t)
  · rw [decodeRead_windowFive h5]
    split_ifs with hra hm
    · rw [encode, fieldA_eq_offset, h5]
    · rw [encode, fieldA_eq_register, h5, hm]
    · rw [encode, fieldA_eq_register, h5]
  · rw [decodeRead_windowFour h4, encode, fieldA_eq_offset, h4]
  · rw [decodeRead_lowWindow hlow, encode, fieldA_eq_lowRead, fieldWin_topBit.1 hlow]
  · rw [decodeRead_highWindow hhigh, encode, fieldA_eq_highRead, hhigh]

/-- Settles O2: the write rows and the read rows each rebuild the address from its parts. -/
theorem encodeOfDecode : Obligations.EncodeOfDecode := by
  unfold Obligations.EncodeOfDecode
  intro ra t
  cases hrw : fieldRw t with
  | true => rw [decode, if_pos hrw, encode_decodeWrite, if_pos rfl]
  | false => rw [decode, hrw, if_neg Bool.false_ne_true, encode_decodeRead, if_neg Bool.false_ne_true]

end EncodeDecode

/-! ### What a decoded instruction is -/

section Decoded

variable {ra : Bool} {t : TWord}

theorem wellFormed_decodeWrite : (decodeWrite ra t).wellFormed = true := by
  simp only [decodeWrite]
  split_ifs with h0 h00 h0A h1 h2 hbank h3 h4 h5 hra htrig h6
  · rfl
  · rfl
  · simp [Instr.wellFormed, h00, h0A]
  · rfl
  · rfl
  · simpa [Instr.wellFormed] using hbank
  · rfl
  · rfl
  · rfl
  · exact htrig.2
  · simpa [Instr.wellFormed, imp_iff_not_or] using htrig
  · rfl
  · rfl

theorem wellFormed_decodeRead : (decodeRead ra t).wellFormed = true := by
  simp only [decodeRead]
  split_ifs with h5 hra hm
  case neg => simpa [Instr.wellFormed] using hm
  all_goals rfl

/-- Settles O3: each row is reached only past the tests that its value condition names. -/
theorem decodedIsWellFormed : Obligations.DecodedIsWellFormed := by
  unfold Obligations.DecodedIsWellFormed
  refine fun ra t => ⟨?_, allowedIn_decode⟩
  rw [decode]
  split
  · exact wellFormed_decodeWrite
  · exact wellFormed_decodeRead

/-- Settles O6: ten closed words, each run through the decoder. -/
theorem sampleWordsDecode : Obligations.SampleWordsDecode := by
  unfold Obligations.SampleWordsDecode
  decide

end Decoded

end Sys2Proof
end

section
/-! PROOF. The bus writes of window 0 that enable RAM access and of window 5 in RAM mode (40_bus_writes.md R101,
R112). -/

namespace Sys2Proof.Machine

variable {ra : Bool} {t : TWord} {s : State} {off : BitVec 13}

/-! ### WR_RAM_ENABLE -/

theorem exec_wrRamEnable_withRam (h : s.config.ramPresent = true) :
    exec (.wrRamEnable off) s = .next ((s.setRamEnable true).emit (.switchRamBank s.ramBankSel)) := if_pos h

theorem exec_wrRamEnable_noRam (h : s.config.ramPresent = false) : exec (.wrRamEnable off) s = .next s :=
  if_neg (by simp [h])

/-- Row 2 of R74: the whole of D is tested. -/
theorem decode_eq_wrRamEnable_iff :
    isWriteTo 0#3 t ∧ fieldD t &&& 0xFF#8 = 0x0A#8 ↔ decode ra t = .wrRamEnable (fieldOff t) := by
  refine window_and_iff_decode_eq rfl fun h => ?_
  rw [decode_windowZero h, show 0xFF#8 = BitVec.allOnes 8 from rfl, BitVec.and_allOnes]
  split_ifs with h0 hA
  · exact iff_of_false (by simp [h0]) nofun
  · exact iff_of_true hA rfl
  · exact iff_of_false hA nofun

/-- Settles O15: the two effects are the two branches on RAM_PRESENT; the row is window 0 with D = 0x0A. -/
theorem ramEnableReselectsBank : Obligations.RamEnableReselectsBank := by
  unfold Obligations.RamEnableReselectsBank
  refine ⟨fun _ _ => exec_wrRamEnable_withRam, fun _ _ => exec_wrRamEnable_noRam, fun ra t => ?_⟩
  exact (windowValue_fit_iff (n := 0#3) (md := 0xFF#8) (d := 0x0A#8)).trans decode_eq_wrRamEnable_iff

/-! ### WR_CAM_IGNORED -/

/-- Row 9 of R74, before rows 10 and 11. -/
theorem decode_eq_wrCamIgnored_iff :
    isWriteTo 5#3 t ∧ ra = false ↔ decode ra t = .wrCamIgnored (fieldOff t) (fieldD t) := by
  refine window_and_iff_decode_eq rfl fun ⟨hrw, hwin⟩ => ?_
  rw [decode, if_pos hrw, decodeWrite_windowFive hwin]
  split_ifs with hra htrig
  · exact iff_of_true hra rfl
  · exact iff_of_false hra nofun
  · exact iff_of_false hra nofun

/-- Settles O21: the block has no effect, and the row is window 5's one write row in RAM mode. -/
theorem ramModeCameraWriteIgnored : Obligations.RamModeCameraWriteIgnored := by
  unfold Obligations.RamModeCameraWriteIgnored
  refine ⟨fun _ _ _ => rfl, fun ra t => ?_⟩
  exact (and_congr_left' (window_fit_iff (n := 5#3))).trans decode_eq_wrCamIgnored_iff

end Sys2Proof.Machine
end

section
/-! PROOF. The bus reads (41_bus_reads.md R130, R132, R133; 20_memory.md R61). -/

namespace Sys2Proof.Machine

variable {ra : Bool} {t : TWord} {s : State} {off : BitVec 13}

/-! ### RD_CAM_CTRL -/

theorem Inv.ctrlBitClear (h : Inv s) : (s.reg 0).getLsbD 0 = false := by
  obtain ⟨-, -, -, hbit, -, -, -⟩ := h
  exact hbit

/-- Row 15 of R74, before row 16. -/
theorem decode_eq_rdCamCtrl_iff : (fieldRw t = false ∧ fieldWin t = 5#3) ∧ fieldM7 t = 0#7 ∧ ra = true ↔
    decode ra t = .rdCamCtrl (fieldIgn t) := by
  refine windowFiveRead_and_iff_decode_eq rfl rfl fun ⟨hrw, hwin⟩ => ?_
  rw [decode, if_neg (by simp [hrw]), decodeRead_windowFive hwin]
  split_ifs with hra hm
  · exact iff_of_false (fun h => absurd h.2 (by simp [hra])) nofun
  · exact iff_of_true ⟨hm, eq_true_of_ne_false hra⟩ rfl
  · exact iff_of_false (fun h => hm h.1) nofun

/-- Settles O39: the read answers with the register as it stands, and the row is window 5's masked address 0 in
register-active mode. -/
theorem controlByteRead : Obligations.ControlByteRead := by
  unfold Obligations.ControlByteRead
  refine ⟨fun _ _ => rfl, fun _ => Inv.ctrlBitClear, fun ra t => ?_⟩
  rw [← decode_eq_rdCamCtrl_iff, ← and_assoc]
  refine and_congr_left' ?_
  exact (register_fit_iff (rw := false) (n := 5#3) (md := 0x00#8) (d := 0x00#8)).trans (by simp)

/-! ### RD_CAM_RAM -/

theorem exec_rdCamRam_disabled (h : s.config.ramPresent = false ∨ s.ramEnable = false) :
    exec (.rdCamRam off) s = .next s.answerDisabledRead := if_pos (Bool.and_eq_false_iff.2 h)

theorem exec_rdCamRam_outside (hp : s.config.ramPresent = true) (he : s.ramEnable = true)
    (h : s.config.ramBytes ≤ ramModeOffset s off) : exec (.rdCamRam off) s = refuse .ramRange s :=
  (if_neg (by simp [hp, he])).trans (if_pos h)

theorem exec_rdCamRam_inside (hp : s.config.ramPresent = true) (he : s.ramEnable = true)
    (h : ramModeOffset s off < s.config.ramBytes) :
    exec (.rdCamRam off) s = .next (s.answerRead (s.sram.read (ramModeOffset s off))) :=
  (if_neg (by simp [hp, he])).trans (if_neg (not_le.2 h))

/-- Row 14 of R74, before rows 15 and 16. -/
theorem decode_eq_rdCamRam_iff : (fieldRw t = false ∧ fieldWin t = 5#3) ∧ ra = false ↔
    decode ra t = .rdCamRam (fieldOff t) := by
  refine windowFiveRead_and_iff_decode_eq rfl rfl fun ⟨hrw, hwin⟩ => ?_
  rw [decode, if_neg (by simp [hrw]), decodeRead_windowFive hwin]
  split_ifs with hra hm
  · exact iff_of_true hra rfl
  · exact iff_of_false hra nofun
  · exact iff_of_false hra nofun

/-- Settles O41: the two effects are the two sides of RAM_BYTES; the row is window 5's one read row in RAM mode. -/
theorem ramModeReadReturnsByte : Obligations.RamModeReadReturnsByte := by
  unfold Obligations.RamModeReadReturnsByte
  refine ⟨fun _ _ => exec_rdCamRam_inside, fun _ _ => exec_rdCamRam_outside, fun ra t => ?_⟩
  exact (and_congr_left' windowFiveRead_fit_iff).trans decode_eq_rdCamRam_iff

/-- Settles O42: a disabled read is the model's own draw (log 7). -/
theorem disabledReadIsFree : Obligations.DisabledReadIsFree := by
  unfold Obligations.DisabledReadIsFree
  exact fun _ _ => exec_rdCamRam_disabled

/-! ### Reads outside window 5 -/

/-- The rows of the reads that the host does not deliver (D8). -/
theorem decodeRead_unrouted (h : fieldWin t ≠ 5#3) : (∃ a, decodeRead ra t = .rdUnroutedLo a) ∨
    (∃ off, decodeRead ra t = .rdUnroutedW4 off) ∨ ∃ a, decodeRead ra t = .rdUnroutedHi a := by
  obtain h5 | h4 | hlow | hhigh := fieldWin_cases (t := t)
  · exact absurd h5 h
  · exact .inr (.inl ⟨_, decodeRead_windowFour h4⟩)
  · exact .inl ⟨_, decodeRead_lowWindow hlow⟩
  · exact .inr (.inr ⟨_, decodeRead_highWindow hhigh⟩)

/-- A read's row that needs no mode is not one of window 5's. -/
theorem read_of_decode_eq {i : Instr} (h : decode ra t = i) (hw : i.writeWindow = none) (hm : i.neededMode = none) :
    fieldRw t = false ∧ fieldWin t ≠ 5#3 := by
  subst h
  refine ⟨fieldRw_of_writeWindow_decode hw, fun h5 => ?_⟩
  rw [neededMode_decode_windowFive h5] at hm
  cases hm

/-- Settles O43: the three effects are the refusal itself; the rows are those of the reads that need no mode. -/
theorem unroutedReadsRefused : Obligations.UnroutedReadsRefused := by
  unfold Obligations.UnroutedReadsRefused
  refine ⟨fun _ _ => rfl, fun _ _ => rfl, fun _ _ => rfl, fun ra t => ⟨fun ⟨hrw, hwin⟩ => ?_, ?_⟩⟩
  · rw [decode, hrw, if_neg Bool.false_ne_true]
    exact decodeRead_unrouted hwin
  · rintro (⟨a, h⟩ | ⟨off, h⟩ | ⟨a, h⟩)
    · exact read_of_decode_eq h rfl rfl
    · exact read_of_decode_eq h rfl rfl
    · exact read_of_decode_eq h rfl rfl

/-! ### Freedom from side effects -/

/-- Settles O44: of the six reads three answer, three are refused, and an answer is the model's own record (logs 7,
9). -/
theorem readsHaveNoSideEffects : Obligations.ReadsHaveNoSideEffects := by
  unfold Obligations.ReadsHaveNoSideEffects
  intro i s t hread h
  cases i
  case rdCamRam off =>
    simp only [exec, execRdCamRam] at h
    split_ifs at h <;> cases h <;> rfl
  case rdCamCtrl ign => cases h; rfl
  case rdCamZero ign r => cases h; rfl
  case rdUnroutedLo | rdUnroutedW4 | rdUnroutedHi => cases h
  all_goals cases hread

end Sys2Proof.Machine
end

section
/-! PROOF. The decode table as data (30_encoding.md R74). -/

namespace Sys2Proof

open Machine (decodeWrite_windowFive decodeRead_windowFive)

variable {ra : Bool} {t : TWord}

/-! ### When a row fits -/

theorem fits_eq_decide {r : OpcodeRow} {c : Prop} [Decidable c] (h : t &&& r.mask = r.pattern ↔ c) :
    r.fits ra t = (decide c && r.mode.all (· == ra)) := by
  rw [OpcodeRow.fits, show (t &&& r.mask == r.pattern) = decide c from decide_eq_decide.2 h]
  cases r.mode <;> rfl

variable {p : Nat} {rw : Bool} {n : BitVec 3} {d md : Byte} {mode : Option Bool}

theorem fits_offset : OpcodeRow.fits ⟨p, busWord true 0xE000#16 md, busWord rw (n ++ 0#13) d, mode⟩ ra t =
    (decide ((fieldRw t = rw ∧ fieldWin t = n) ∧ fieldD t &&& md = d) && mode.all (· == ra)) :=
  fits_eq_decide offset_fit_iff

theorem fits_register : OpcodeRow.fits ⟨p, busWord true 0xE07F#16 md, busWord rw (n ++ 0#6 ++ 0#7) d, mode⟩ ra t =
    (decide ((fieldRw t = rw ∧ fieldWin t = n) ∧ fieldM7 t = 0#7 ∧ fieldD t &&& md = d) && mode.all (· == ra)) :=
  fits_eq_decide register_fit_iff

theorem fits_lowWindow : OpcodeRow.fits ⟨p, busWord true 0x8000#16 0x00#8, busWord false 0x0000#16 0x00#8, mode⟩ ra t =
    (decide (fieldRw t = false ∧ (fieldWin t).getLsbD 2 = false) && mode.all (· == ra)) :=
  fits_eq_decide lowWindow_fit_iff

theorem fits_highWindow : OpcodeRow.fits ⟨p, busWord true 0xC000#16 0x00#8, busWord false 0xC000#16 0x00#8, mode⟩ ra t =
    (decide (fieldRw t = false ∧ t.extractLsb' 22 2 = 3#2) && mode.all (· == ra)) :=
  fits_eq_decide highWindow_fit_iff

/-- The table of R74 with each row's mask and match value as RW, address and D. -/
theorem opcodeRows_eq : opcodeRows =
    [ ⟨1, busWord true 0xE000#16 0xFF#8, busWord true (0#3 ++ 0#13) 0x00#8, none⟩,
      ⟨2, busWord true 0xE000#16 0xFF#8, busWord true (0#3 ++ 0#13) 0x0A#8, none⟩,
      ⟨3, busWord true 0xE000#16 0x00#8, busWord true (0#3 ++ 0#13) 0x00#8, none⟩,
      ⟨4, busWord true 0xE000#16 0x00#8, busWord true (1#3 ++ 0#13) 0x00#8, none⟩,
      ⟨5, busWord true 0xE000#16 0xF0#8, busWord true (2#3 ++ 0#13) 0x00#8, none⟩,
      ⟨6, busWord true 0xE000#16 0x00#8, busWord true (2#3 ++ 0#13) 0x00#8, none⟩,
      ⟨7, busWord true 0xE000#16 0x00#8, busWord true (3#3 ++ 0#13) 0x00#8, none⟩,
      ⟨8, busWord true 0xE000#16 0x00#8, busWord true (4#3 ++ 0#13) 0x00#8, none⟩,
      ⟨9, busWord true 0xE000#16 0x00#8, busWord true (5#3 ++ 0#13) 0x00#8, some false⟩,
      ⟨10, busWord true 0xE07F#16 0x01#8, busWord true (5#3 ++ 0#6 ++ 0#7) 0x01#8, some true⟩,
      ⟨11, busWord true 0xE000#16 0x00#8, busWord true (5#3 ++ 0#13) 0x00#8, some true⟩,
      ⟨12, busWord true 0xE000#16 0x00#8, busWord true (6#3 ++ 0#13) 0x00#8, none⟩,
      ⟨13, busWord true 0xE000#16 0x00#8, busWord true (7#3 ++ 0#13) 0x00#8, none⟩,
      ⟨14, busWord true 0xE000#16 0x00#8, busWord false (5#3 ++ 0#13) 0x00#8, some false⟩,
      ⟨15, busWord true 0xE07F#16 0x00#8, busWord false (5#3 ++ 0#6 ++ 0#7) 0x00#8, some true⟩,
      ⟨16, busWord true 0xE000#16 0x00#8, busWord false (5#3 ++ 0#13) 0x00#8, some true⟩,
      ⟨17, busWord true 0x8000#16 0x00#8, busWord false 0x0000#16 0x00#8, none⟩,
      ⟨18, busWord true 0xE000#16 0x00#8, busWord false (4#3 ++ 0#13) 0x00#8, none⟩,
      ⟨19, busWord true 0xC000#16 0x00#8, busWord false 0xC000#16 0x00#8, none⟩ ] := by
  decide

/-! ### The first row that fits -/

/-- Row 10 tests bit 0 of D. -/
theorem and_one_eq_one_iff {d : Byte} : d &&& 0x01#8 = 0x01#8 ↔ d[0] = true := by
  revert d
  decide

theorem window_cases (n : BitVec 3) :
    n = 0#3 ∨ n = 1#3 ∨ n = 2#3 ∨ n = 3#3 ∨ n = 4#3 ∨ n = 5#3 ∨ n = 6#3 ∨ n = 7#3 := by
  revert n
  decide

theorem prio_find?_cons {q : OpcodeRow → Bool} {r : OpcodeRow} {rs : List OpcodeRow} :
    ((r :: rs).find? q).map OpcodeRow.prio = if q r = true then some r.prio else (rs.find? q).map OpcodeRow.prio := by
  rw [List.find?_cons]
  cases q r <;> rfl

/-- The priority of the first row that fits a write: window by window, the tests of D and of the masked address that
the decoder makes. -/
theorem firstFit_of_write (hrw : fieldRw t = true) : (firstFit ra t).map OpcodeRow.prio = some (decode ra t).row := by
  simp only [firstFit, opcodeRows_eq, prio_find?_cons, fits_offset, fits_register, fits_lowWindow, fits_highWindow,
    Option.all_none, Option.all_some, Bool.and_true, Bool.and_eq_true, decide_eq_true_eq, beq_iff_eq]
  obtain h | h | h | h | h | h | h | h := window_cases (fieldWin t)
  · have hmask : fieldD t &&& 0xFF#8 = fieldD t := BitVec.and_allOnes
    rw [decode_windowZero ⟨hrw, h⟩]
    by_cases h0 : fieldD t = 0x00#8
    · simp [hrw, h, h0, Instr.row]
    · by_cases hA : fieldD t = 0x0A#8
      · simp [hrw, h, hA, Instr.row]
      · simp [hrw, h, hmask, h0, hA, Instr.row]
  · simp [hrw, h, decode_windowOne ⟨hrw, h⟩, Instr.row]
  · rw [decode_windowTwo ⟨hrw, h⟩]
    by_cases hbank : (fieldD t).toNat < 0x10
    · simp [hrw, h, Machine.and_highNibble_eq_zero_iff, hbank, Instr.row]
    · simp [hrw, h, Machine.and_highNibble_eq_zero_iff, hbank, Instr.row]
  · simp [hrw, h, decode_windowThree ⟨hrw, h⟩, Instr.row]
  · simp [hrw, h, decode_windowFour ⟨hrw, h⟩, Instr.row]
  · rw [decode, if_pos hrw, decodeWrite_windowFive h]
    cases ra with
    | false => simp [hrw, h, Instr.row]
    | true =>
      by_cases htrig : fieldM7 t = 0#7 ∧ (fieldD t)[0] = true
      · simp [hrw, h, and_one_eq_one_iff, htrig, Instr.row]
      · simp [hrw, h, and_one_eq_one_iff, htrig, Instr.row]
  · simp [hrw, h, decode_windowSix ⟨hrw, h⟩, Instr.row]
  · simp [hrw, h, decode_windowSeven ⟨hrw, h⟩, Instr.row]

theorem firstFit_of_read (hrw : fieldRw t = false) : (firstFit ra t).map OpcodeRow.prio = some (decode ra t).row := by
  simp only [firstFit, opcodeRows_eq, prio_find?_cons, fits_offset, fits_register, fits_lowWindow, fits_highWindow,
    Option.all_none, Option.all_some, Bool.and_true, Bool.and_eq_true, decide_eq_true_eq, beq_iff_eq]
  rw [decode, hrw, if_neg Bool.false_ne_true]
  obtain h5 | h4 | hlow | hhigh := fieldWin_cases (t := t)
  · rw [decodeRead_windowFive h5]
    cases ra with
    | false => simp [h5, Instr.row]
    | true =>
      by_cases hm : fieldM7 t = 0#7
      · simp [h5, hm, Instr.row]
      · simp [h5, hm, Instr.row]
  · simp [h4, decodeRead_windowFour h4, Instr.row]
  · have h5 : fieldWin t ≠ 5#3 := fun h => by simp [h] at hlow
    simp only [h5, hlow, decodeRead_lowWindow hlow, reduceCtorEq, and_false, false_and, and_self, if_false, if_true,
      Instr.row]
  · rw [decodeRead_highWindow hhigh]
    obtain h6 | h7 := topBits_eq_three_iff.1 hhigh
    · simp [h6, hhigh, Instr.row]
    · simp [h7, hhigh, Instr.row]

/-- Settles O4: whether a row fits is told by the fields, and the decoder tests the same fields in the same order. -/
theorem decodeTakesFirstRow : Obligations.DecodeTakesFirstRow := by
  unfold Obligations.DecodeTakesFirstRow
  intro ra t
  cases hrw : fieldRw t with
  | true => exact firstFit_of_write hrw
  | false => exact firstFit_of_read hrw

end Sys2Proof
end

section
/-! PROOF. The pseudo-transactions (30_encoding.md R79) and the aliases of a register address (20_memory.md R51,
R234). -/

namespace Sys2Proof

open Machine (exec)

/-! ### Pseudo-transactions -/

section Expand

/-- The address of register `r` in window 5 (R79). -/
theorem registerAddress_eq {r : BitVec 7} : 0xA000#16 + r.setWidth 16 = 5#3 ++ 0#6 ++ r := by
  revert r
  decide

/-- The address of offset `o` in window 5 (R79). -/
theorem ramAddress_eq {o : BitVec 13} : 0xA000#16 + o.setWidth 16 = 5#3 ++ o := by
  have ho := o.isLt
  apply BitVec.eq_of_toNat_eq
  rw [BitVec.toNat_add, BitVec.toNat_setWidth, BitVec.toNat_append, ← Nat.shiftLeft_add_eq_or_of_lt ho]
  simp only [BitVec.toNat_ofNat, Nat.shiftLeft_eq]
  omega

/-- Bit 0 of the value that SHOOT writes is set. -/
theorem getLsbD_or_one {b : Byte} : (b ||| 0x01#8).getLsbD 0 = true := by simp

/-- Settles O7: each expansion is the encoding of the transaction it stands for, and decoding undoes encoding. -/
theorem pseudoTransactionsExpand : Obligations.PseudoTransactionsExpand := by
  unfold Obligations.PseudoTransactionsExpand
  refine ⟨fun ra => ?_, fun ra => ?_, fun ra n => ?_, fun ra n => ?_, fun ra => ?_, fun r v hr => ?_, fun b => ?_, ?_,
    fun o => ?_⟩
  · exact decodeOfEncode (.wrRamDisable 0#13) ra rfl rfl
  · exact decodeOfEncode (.wrRamEnable 0#13) ra rfl rfl
  · exact decodeOfEncode (.wrRomBank 0#13 n) ra rfl rfl
  · exact decodeOfEncode (.wrRamBank 0#13 n) ra rfl rfl
  · exact decodeOfEncode (.wrRegMode 0#13 0x10#8) ra rfl rfl
  · rw [Pseudo.expand, registerAddress_eq]
    exact decodeOfEncode (.wrCamReg 0#6 r v) true hr rfl
  · exact decodeOfEncode (.wrCamTrigger 0#6 (b ||| 0x01#8)) true getLsbD_or_one rfl
  · exact decodeOfEncode (.rdCamCtrl 0#6) true rfl rfl
  · rw [Pseudo.expand, ramAddress_eq]
    exact decodeOfEncode (.rdCamRam o) false rfl rfl

end Expand

/-! ### Aliases -/

section Aliases

variable {a b : Word16} {d : Byte} {s : Machine.State}

/-- The window of an address is its quotient by 0x2000. -/
theorem window_eq_iff {n : BitVec 3} : a.extractLsb' 13 3 = n ↔ a.toNat / 0x2000 = n.toNat := by
  rw [← BitVec.toNat_inj, BitVec.extractLsb'_toNat, Nat.shiftRight_eq_div_pow, Nat.mod_eq_of_lt (by omega)]

/-- The masked address is the remainder by 0x80 (R9). -/
theorem toNat_maskedAddress : (a.extractLsb' 0 7).toNat = a.toNat % 0x80 := by
  rw [BitVec.extractLsb'_toNat, Nat.shiftRight_zero]

/-- An address of window 5 is put together from its ignored bits and its masked address. -/
theorem address_windowFive (h : a.toNat / 0x2000 = 5) : a = 5#3 ++ a.extractLsb' 7 6 ++ a.extractLsb' 0 7 := by
  have hA := fieldA_eq_register (t := busWord true a 0x00#8)
  rwa [fieldA_busWord, fieldWin_busWord, fieldIgn_busWord, fieldM7_busWord, window_eq_iff (n := 5#3) |>.2 h] at hA

/-- No meaning of window 5 looks at the ignored bits. -/
theorem exec_write_register (ign ign' : BitVec 6) (r : BitVec 7) :
    exec (decode true (busWord true (5#3 ++ ign ++ r) d)) s =
      exec (decode true (busWord true (5#3 ++ ign' ++ r) d)) s := by
  rw [decode_busWord_write_register, decode_busWord_write_register]
  split <;> rfl

theorem exec_read_register (ign ign' : BitVec 6) (r : BitVec 7) :
    exec (decode true (busWord false (5#3 ++ ign ++ r) d)) s =
      exec (decode true (busWord false (5#3 ++ ign' ++ r) d)) s := by
  rw [decode_busWord_read_register, decode_busWord_read_register]
  split <;> rfl

/-- Settles O8: aliases differ in the ignored bits alone. -/
theorem aliasesActAlike : Obligations.AliasesActAlike := by
  unfold Obligations.AliasesActAlike
  intro s a b d ha hb hab
  have hm : a.extractLsb' 0 7 = b.extractLsb' 0 7 := by
    rw [← BitVec.toNat_inj, toNat_maskedAddress, toNat_maskedAddress, hab]
  rw [address_windowFive ha, address_windowFive hb, hm]
  exact ⟨exec_write_register _ _ _, exec_read_register _ _ _⟩

end Aliases

end Sys2Proof
end

section
/-! PROOF. The step and the host's moves (60_exceptions.md R208, R214; 92_eei_decisions.md D25). -/

namespace Sys2Proof.Machine

variable {s : State}

/-! ### Running a step forwards -/

theorem step_refused (h : configAdmissible s.config = false) : step s = refuse .config s := if_pos h

theorem step_idle (hc : configAdmissible s.config = true) (h : s.inputs = []) : step s = .next s := by
  unfold step
  rw [if_neg (by simp [hc]), h]

theorem step_move {m : HostMove} {rest : List HostMove} (hc : configAdmissible s.config = true)
    (h : s.inputs = m :: rest) : step s = runMove m (s.setInputs rest) := by
  unfold step
  rw [if_neg (by simp [hc]), h]

/-- Settles O9: a transaction is run by decoding it under the mode bit. -/
theorem stepRunsDecodedInstruction : Obligations.StepRunsDecodedInstruction := by
  unfold Obligations.StepRunsDecodedInstruction
  exact fun _ _ _ hc h => step_move hc h

/-! ### Placing a table word -/

theorem decodeTableWord_eq_some {nbits w : Nat} {i : Instr} (h : decodeTableWord nbits w = some i) :
    w % 2 ^ nbits < 2 ^ 25 ∧ decode true (BitVec.ofNat 25 (w % 2 ^ nbits)) = i := by
  unfold decodeTableWord decodeNumber at h
  split at h
  case h_1 j hj =>
    split at hj
    case isTrue hlt =>
      cases hj
      exact ⟨hlt, Option.some.inj h⟩
    case isFalse => cases hj
  case h_2 => cases h

/-- What a placed word leaves, once the step has taken it off the queue: window 5's words select the mode (log 2). -/
theorem placeWord_taken {w : TWord} : (placeWord true w s).inputs = .transaction w :: s.inputs ∧
    (placeWord true w s).setInputs s.inputs =
      (if fieldWin w = 5#3 then { s with registersActive := true, directRamMap := false } else s) ∧
    (placeWord true w s).config = s.config := by
  unfold placeWord
  split_ifs <;> exact ⟨rfl, rfl, rfl⟩

/-- A placed word decodes as in register-active mode: window 5's words because that mode was selected, the others
because they do not look at the mode. -/
theorem decode_placeWord {w : TWord} : decode (placeWord true w s).registersActive w = decode true w := by
  by_cases hwin : fieldWin w = 5#3
  · rw [placeWord, if_pos hwin]
  · exact decode_eq_decode_of_windowFive_ne hwin

/-- Settles O10: the placed word stands first in the queue and decodes to what the table word reads as. -/
theorem placedWordRunsNext : Obligations.PlacedWordRunsNext := by
  unfold Obligations.PlacedWordRunsNext
  intro s nbits w i hc h
  obtain ⟨hlt, rfl⟩ := decodeTableWord_eq_some h
  have hplaced : s.withFetchWord nbits w = placeWord true (BitVec.ofNat 25 (w % 2 ^ nbits)) s := if_pos hlt
  obtain ⟨hin, htaken, hconfig⟩ := placeWord_taken (s := s) (w := BitVec.ofNat 25 (w % 2 ^ nbits))
  rw [hplaced, step_move (hconfig ▸ hc) hin, runMove, runTransaction, State.setInputs_registersActive, decode_placeWord,
    htaken]

/-! ### The host's moves -/

theorem hasRamByte_iff {off : Nat} :
    s.hasRamByte off = true ↔ s.config.ramPresent = true ∧ off < s.config.ramBytes := by
  rw [State.hasRamByte, Bool.and_eq_true, decide_eq_true_eq]

theorem hostStore_inside {off : Nat} {v : Byte} (hp : s.config.ramPresent = true) (h : off < s.config.ramBytes) :
    hostStore off v s = .next (s.setSram (s.sram.write off v)) := if_pos (hasRamByte_iff.2 ⟨hp, h⟩)

theorem hostStore_outside {off : Nat} {v : Byte} (h : s.config.ramPresent = false ∨ s.config.ramBytes ≤ off) :
    hostStore off v s = refuse .ramRange s := by
  refine if_neg fun hb => ?_
  obtain ⟨hp, hlt⟩ := hasRamByte_iff.1 hb
  rcases h with hr | hr
  · simp [hp] at hr
  · omega

/-- Settles O11: each move is one branch of the step, and a host store is one write of the canonical memory. -/
theorem hostMovesBetweenTransactions : Obligations.HostMovesBetweenTransactions := by
  unfold Obligations.HostMovesBetweenTransactions
  refine ⟨fun _ => step_idle, fun _ _ => step_move, fun s off v rest hc hwf hin hp hlt => ?_,
    fun s off v rest hc hin h => ?_⟩
  · exact ⟨s.sram.write off v, (step_move hc hin).trans (hostStore_inside hp hlt), Memory.write_wf hwf,
      Memory.read_write_same hwf, fun _ => Memory.read_write_other hwf⟩
  · exact (step_move hc hin).trans (hostStore_outside h)

/-! ### The configuration -/

theorem andThen_eq_refused {r : Result} {k : State → Result} {q : Refusal} :
    andThen r k = .refused q ↔ r = .refused q ∨ ∃ u, r = .next u ∧ k u = .refused q := by
  cases r <;> simp [andThen]

/-- The pixel loop ends in a next state or in the raw fault, never in a refusal (R149). -/
theorem packFrame_ne_refused {f : Frame} {q : Refusal} : packFrame f s ≠ .refused q := by
  unfold packFrame
  split <;> nofun

/-- A capture is refused for want of RAM, for the range of the buffer, or for a short frame (R207). -/
theorem capture_refused {q : Refusal} (h : capture s = .refused q) :
    ∃ u, q = .noRam u ∨ q = .ramRange u ∨ q = .shortFrame u := by
  unfold capture captureFrame captureZeroed at h
  split at h
  · cases h
  · split_ifs at h
    · cases h
      exact ⟨_, .inl rfl⟩
    · cases h
      exact ⟨_, .inr (.inl rfl)⟩
    · cases h
      exact ⟨_, .inr (.inr rfl)⟩
    · exact absurd h packFrame_ne_refused

/-- No transaction refuses the configuration: only the step does. -/
theorem exec_ne_config {i : Instr} {u : State} : exec i s ≠ .refused (.config u) := by
  intro h
  cases i
  case wrCamTrigger ign d =>
    rcases andThen_eq_refused.1 h with h | ⟨_, -, h⟩
    · obtain ⟨_, h | h | h⟩ := capture_refused h <;> cases h
    · cases h
  case wrRamEnable off =>
    simp only [exec, execWrRamEnable] at h
    split_ifs at h
  case wrCamReg ign r d =>
    simp only [exec, execWrCamReg] at h
    split_ifs at h
  case rdCamRam off =>
    simp only [exec, execRdCamRam, refuse] at h
    split_ifs at h
    cases h
  all_goals cases h

theorem hostStore_ne_config {off : Nat} {v : Byte} {u : State} : hostStore off v s ≠ .refused (.config u) := by
  unfold hostStore
  split <;> nofun

theorem hostFollowUp_ne_config {i : Instr} {u : State} : hostFollowUp i s ≠ .refused (.config u) := by
  cases i
  case wrCamIgnored off d =>
    rw [hostFollowUp]
    split
    · exact hostStore_ne_config
    · nofun
  all_goals nofun

theorem runMove_ne_config {m : HostMove} {u : State} : runMove m s ≠ .refused (.config u) := by
  cases m with
  | transaction w =>
    intro h
    rcases andThen_eq_refused.1 h with h | ⟨_, -, h⟩
    · exact exec_ne_config h
    · exact hostFollowUp_ne_config h
  | clearDirty => nofun
  | storeRam off v => exact hostStore_ne_config

/-- Settles O12: the conditions are those of `configAdmissible`, and nothing that an admissible step runs refuses the
configuration. -/
theorem badConfigurationRefused : Obligations.BadConfigurationRefused := by
  unfold Obligations.BadConfigurationRefused
  refine ⟨fun _ => rfl, fun s => ?_⟩
  rw [← configAdmissible_iff, Bool.not_eq_true]
  refine ⟨step_refused, fun h => eq_false_of_ne_true fun hc => ?_⟩
  cases hin : s.inputs with
  | nil => cases (step_idle hc hin).symm.trans h
  | cons m rest => exact runMove_ne_config ((step_move hc hin).symm.trans h)

/-! ### The sequel of a window-5 write in RAM mode -/

theorem hostStoresWrites_iff : hostStoresWrites s = true ↔ s.config.hostRamWrite = .store ∧ s.directRamMap = true ∧
    s.ramEnable = true ∧ s.config.ramPresent = true := by
  simp only [hostStoresWrites, Bool.and_eq_true, decide_eq_true_eq, and_assoc]

theorem hostFollowUp_other {i : Instr} (h : ∀ off d, i ≠ .wrCamIgnored off d) : hostFollowUp i s = .next s := by
  cases i
  case wrCamIgnored off d => exact absurd rfl (h off d)
  all_goals rfl

theorem hostFollowUp_stored {off : BitVec 13} {d : Byte} (h : hostStoresWrites s = true) :
    hostFollowUp (.wrCamIgnored off d) s = hostStore (ramModeOffset s off) d s := if_pos h

theorem hostFollowUp_notStored {off : BitVec 13} {d : Byte} (h : hostStoresWrites s = false) :
    hostFollowUp (.wrCamIgnored off d) s = .next s := if_neg (by simp [h])

/-- Settles O13: the sequel is the host's store, under the four conditions together. -/
theorem hostRamWriteFollowsIgnoredWrite : Obligations.HostRamWriteFollowsIgnoredWrite := by
  unfold Obligations.HostRamWriteFollowsIgnoredWrite
  refine ⟨fun _ _ => hostFollowUp_other, fun s off d h => ?_, fun s off d hst hmap hen hp hwf hlt => ?_,
    fun s off d hst hmap hen hp hle => ?_⟩
  · exact hostFollowUp_notStored (by rwa [← Bool.not_eq_true, hostStoresWrites_iff])
  · have hstores := hostStoresWrites_iff.2 ⟨hst, hmap, hen, hp⟩
    exact ⟨_, (hostFollowUp_stored hstores).trans (hostStore_inside hp hlt), Memory.write_wf hwf,
      Memory.read_write_same hwf, fun _ => Memory.read_write_other hwf⟩
  · have hstores := hostStoresWrites_iff.2 ⟨hst, hmap, hen, hp⟩
    exact (hostFollowUp_stored hstores).trans (hostStore_outside (.inr hle))

end Sys2Proof.Machine
end

section
/-! PROOF. The quantizer: monotonicity, the exposure's arithmetic and the raw codes (43_quantizer.md R162 to R167). -/

namespace Sys2Proof.Machine

/-! ### Monotonicity -/

/-- The pattern that the cascade gives, test by test (R165, R168). -/
theorem toNat_codePattern_quant {adj : Nat} {d m l : Byte} : (codePattern (quant adj d m l)).toNat =
    if adj < d.toNat then 0x101 else if adj < m.toNat then 0x100 else if adj < l.toNat then 0x001 else 0x000 := by
  unfold quant
  split_ifs <;> rfl

/-- Settles O35: for an ascending triple a larger value fails every test that a smaller one fails, and each later test
gives a smaller pattern. -/
theorem quantizerMonotone : Obligations.QuantizerMonotone := by
  unfold Obligations.QuantizerMonotone
  intro adj adj' d m l hdm hml hle
  rw [toNat_codePattern_quant, toNat_codePattern_quant]
  split_ifs <;> omega

/-! ### The exposure -/

/-- EXPOSURE, its high byte in regs[2] (R25). -/
theorem toNat_exposure {s : State} : (exposure s).toNat = (s.reg 2).toNat * 256 + (s.reg 3).toNat := by
  have h3 := (s.reg 3).isLt
  have happ : (exposure s).toNat = (s.reg 2).toNat <<< 8 ||| (s.reg 3).toNat := BitVec.toNat_append _ _
  rw [happ, ← Nat.shiftLeft_add_eq_or_of_lt h3, Nat.shiftLeft_eq]

/-- Settles O36: the formula is `weightedCode` with EXPOSURE written out, and the last index is MINDEX's greatest
and 8. -/
theorem weightedCodeFormula : Obligations.WeightedCodeFormula := by
  unfold Obligations.WeightedCodeFormula
  intro s f x y
  have hm : mindex x y ≤ 45 := mindex_le
  refine ⟨?_, Nat.add_le_add_right hm 8⟩
  rw [← toNat_exposure]
  rfl

/-- The product of R162 is largest for the largest luminance and exposure. -/
theorem exposeProduct_le {l : Byte} {e : Word16} : (l.toNat + 1) * e.toNat ≤ 256 * 65535 :=
  Nat.mul_le_mul (by omega) (by omega)

theorem expose_one {l : Byte} : expose l 1#16 = if l = 255#8 then 1 else 0 := by
  have hval : expose l 1#16 = (l.toNat + 1) / 256 := by simp [expose]
  rw [hval]
  split_ifs with h
  · rw [h]
    rfl
  · have hne : l.toNat ≠ 255 := fun h255 => h (BitVec.eq_of_toNat_eq h255)
    omega

/-- Settles O37: the bounds are those of the largest product, and the corner cases are the formula at their values. -/
theorem exposureArithmetic : Obligations.ExposureArithmetic := by
  unfold Obligations.ExposureArithmetic
  intro l e
  have hle := exposeProduct_le (l := l) (e := e)
  refine ⟨rfl, hle, ?_, ?_, ?_, expose_one, by decide, by decide⟩
  · calc expose l e ≤ 256 * 65535 / 256 := Nat.div_le_div_right hle
      _ = 65535 := rfl
  · simp [expose]
  · simp [expose]

/-! ### The raw codes -/

/-- The nearest level is a level, and no level is nearer (R167): the cuts lie half-way between neighbouring levels. -/
theorem nearestLevel_nearest (l : Byte) : ∃ v ∈ [0, 85, 170, 255], nearestLevel l = BitVec.ofNat 8 v ∧
    ∀ u ∈ [0, 85, 170, 255], ((l.toNat : Int) - v).natAbs ≤ ((l.toNat : Int) - u).natAbs := by
  have hlevels : ∀ u ∈ ([0, 85, 170, 255] : List Int), u = 0 ∨ u = 85 ∨ u = 170 ∨ u = 255 := by simp
  unfold nearestLevel
  split_ifs with h0 h1 h2
  · exact ⟨0, by decide, rfl, fun u hu => by have := hlevels u hu; omega⟩
  · exact ⟨85, by decide, rfl, fun u hu => by have := hlevels u hu; omega⟩
  · exact ⟨170, by decide, rfl, fun u hu => by have := hlevels u hu; omega⟩
  · exact ⟨255, by decide, rfl, fun u hu => by have := hlevels u hu; omega⟩

theorem rawLevelCode_none {l : Byte} (h0 : l ≠ 0#8) (h1 : l ≠ 85#8) (h2 : l ≠ 170#8) (h3 : l ≠ 255#8) :
    rawLevelCode l = none := by
  simp only [rawLevelCode, h0, h1, h2, h3, if_false]

/-- Settles O38: FAULT is the code of a level, and NEAREST that of the nearest level. -/
theorem rawMapping : Obligations.RawMapping := by
  unfold Obligations.RawMapping
  refine ⟨fun p => ?_, fun _ => rawLevelCode_none, fun l => ?_⟩
  · cases p <;> exact ⟨rfl, rfl, rfl, rfl⟩
  · obtain ⟨v, hv, hlevel, hnear⟩ := nearestLevel_nearest l
    exact ⟨v, hv, congrArg rawLevelCode hlevel, hnear⟩

end Sys2Proof.Machine
end

section
/-! PROOF. Pixels and output bits correspond one to one, so the packing order does not matter (44_tile_packer.md R181,
R186). -/

namespace Sys2Proof.Machine

variable {m : Memory} {code : Nat → Nat → Code} {ps qs : List (Nat × Nat)}

/-! ### The order of packing -/

/-- What a whole loop over some pixels leaves depends on which pixels they are, and not on their order: each bit is
set by one of them or by none. -/
theorem packPixels_memory_perm (h : m.wf = true) (hp : ps.Perm qs) :
    (packPixels (fun x y => .ok (code x y)) ps m).1 = (packPixels (fun x y => .ok (code x y)) qs m).1 := by
  refine Memory.eq_of_read_eq (packPixels_wf h) (packPixels_wf h) fun a => BitVec.eq_of_getLsbD_eq fun i hi => ?_
  rw [Bool.eq_iff_iff, packPixels_bit h hi fun _ _ => rfl, packPixels_bit h hi fun _ _ => rfl]
  simp only [hp.mem_iff]

/-- Settles O31: both loops run to their end and leave the same memory. -/
theorem packingOrderIrrelevant : Obligations.PackingOrderIrrelevant := by
  unfold Obligations.PackingOrderIrrelevant
  intro code ps m hwf hp
  refine Prod.ext (packPixels_memory_perm hwf hp) ?_
  rw [packPixels_complete fun _ _ => rfl, packPixels_complete fun _ _ => rfl]

/-! ### The bits of a pixel -/

/-- Settles O32: `pixel_of_bit` names the one pixel of each bit of a plane-0 byte. -/
theorem pixelsOwnDistinctBits : Obligations.PixelsOwnDistinctBits := by
  unfold Obligations.PixelsOwnDistinctBits
  refine ⟨fun x y x' y' hx hy hx' hy' ha hs => ?_, fun o k hlo hhi heven hk => ?_, fun x y hx hy => ?_⟩
  · have hr := (pixelAddr_range (x := x) hy).1
    have hself := (pixel_of_bit (t := pixelAddr x y - 0x100) (p := 0) (pixelShift_lt (x := x)) hx hy (by omega)).1
      ⟨rfl, by omega⟩
    have hother := (pixel_of_bit (t := pixelAddr x y - 0x100) (p := 0) (pixelShift_lt (x := x)) hx' hy' (by omega)).1
      ⟨hs, by omega⟩
    omega
  · have hx : 8 * ((o - 0x100) / 16 % 16) + 7 - k < 128 := by omega
    have hy : 8 * ((o - 0x100) / 16 / 16) + (o - 0x100) / 2 % 8 < 112 := by omega
    have hbit := (pixel_of_bit (t := o - 0x100) (p := 0) hk hx hy (by omega)).2 ⟨by omega, rfl, rfl⟩
    exact ⟨_, _, hx, hy, by omega, hbit.1.symm⟩
  · simp only [tileOffset]
    omega

end Sys2Proof.Machine
end

section
/-! PROOF. The size N of the register file is not observable (10_state.md R24): two states that differ at most in N and
the margin stay so through every operation of a step. -/

namespace Sys2Proof.Machine

/-! ### States that differ in the register file -/

/-- The state with a register file of another size and contents. -/
def State.withFile (s : State) (n : Nat) (rs : List Byte) : State :=
  { s with config := { s.config with regCount := n }, regs := rs }

variable {s s' : State} {f : Frame} {i : Instr}

theorem sameButN.exists_withFile (h : sameButN s s') : ∃ n rs, s' = s.withFile n rs := by
  obtain ⟨-, -, -, -, -, -, -, hs⟩ := h
  exact ⟨_, _, hs⟩

theorem sameButN.reg_eq {j : Nat} (h : sameButN s s') (hj : j < 54) : s'.reg j = s.reg j := by
  obtain ⟨-, -, -, -, -, -, hreg, -⟩ := h
  exact hreg j hj

/-- An update of the state that neither reads nor writes the register file keeps the relation. -/
theorem sameButN.map {g : State → State} (h : sameButN s s')
    (hg : ∀ n rs, g (s.withFile n rs) = (g s).withFile n rs := by exact fun _ _ => rfl)
    (hc : ∀ u, (g u).config = u.config := by exact fun _ => rfl)
    (hr : ∀ u, (g u).regs = u.regs := by exact fun _ => rfl) : sameButN (g s) (g s') := by
  obtain ⟨hlo, hhi, hlen, hlo', hhi', hlen', hreg, hs⟩ := h
  refine ⟨by rwa [hc], by rwa [hc], by rwa [hc, hr], by rwa [hc], by rwa [hc], by rwa [hc, hr], fun j hj => ?_, ?_⟩
  · simpa only [State.reg, hr] using hreg j hj
  · calc g s' = g (s.withFile s'.config.regCount s'.regs) := congrArg g hs
      _ = (g s).withFile s'.config.regCount s'.regs := hg _ _
      _ = (g s).withFile (g s').config.regCount (g s').regs := by rw [hc, hr]

/-- A register write leaves the other registers, and past the file's end all of them. -/
theorem State.reg_setReg_ne {j k : Nat} {v : Byte} (h : k ≠ j) : (s.setReg j v).reg k = s.reg k := by
  rw [State.reg, State.reg, State.setReg_regs, List.getD_eq_getElem?_getD, List.getD_eq_getElem?_getD,
    List.getElem?_set_ne h.symm]

/-- A register write keeps the relation, also one that lands in only one of the two files. -/
theorem sameButN.setReg {j : Nat} {v : Byte} (h : sameButN s s') : sameButN (s.setReg j v) (s'.setReg j v) := by
  obtain ⟨hlo, hhi, hlen, hlo', hhi', hlen', hreg, hs⟩ := h
  refine ⟨hlo, hhi, by simpa using hlen, hlo', hhi', by simpa using hlen', fun k hk => ?_, ?_⟩
  · by_cases hkj : k = j
    · rw [State.reg_setReg (by omega), State.reg_setReg (by omega), if_pos hkj, if_pos hkj]
    · rw [State.reg_setReg_ne hkj, State.reg_setReg_ne hkj, hreg k hk]
  · calc s'.setReg j v = (s.withFile s'.config.regCount s'.regs).setReg j v := congrArg (State.setReg · j v) hs
      _ = _ := rfl

/-! ### Outcomes that differ in the register file -/

theorem sameOutcomeButN.andThen {r r' : Result} {k k' : State → Result} (h : sameOutcomeButN r r')
    (hk : ∀ t t', sameButN t t' → sameOutcomeButN (k t) (k' t')) :
    sameOutcomeButN (andThen r k) (andThen r' k') := by
  cases r with
  | next t =>
    cases r' with
    | next t' => exact hk t t' h
    | fault q => exact h.elim
    | refused q => exact h.elim
  | fault q =>
    cases r' with
    | next t' => exact h.elim
    | fault q' => exact h
    | refused q' => exact h.elim
  | refused q =>
    cases r' with
    | next t' => cases q <;> exact h.elim
    | fault q' => cases q <;> exact h.elim
    | refused q' => exact h

/-! ### The capture -/

/-- What a capture takes from the registers lies below 54. -/
theorem sameButN.captureRegsAgree (h : sameButN s s') : captureRegsAgree s s' := fun j hj => h.reg_eq (by omega)

theorem packFrame_sameButN (h : sameButN s s') : sameOutcomeButN (packFrame f s) (packFrame f s') := by
  have hregs := h.captureRegsAgree
  obtain ⟨n, rs, rfl⟩ := h.exists_withFile
  have hcode : pixelCode (s.withFile n rs) f = pixelCode s f := pixelCode_congr hregs rfl rfl
  rcases hp : packPixels (pixelCode s f) pixelOrder s.sram with ⟨m, _ | ⟨x, y, l⟩⟩
  · rw [packFrame_ok hp, packFrame_ok (s := s.withFile n rs) (by rw [hcode]; exact hp)]
    exact h.map (g := (State.setSram · m))
  · rw [packFrame_fault hp, packFrame_fault (s := s.withFile n rs) (by rw [hcode]; exact hp)]
    exact ⟨rfl, rfl, rfl, h.map (g := fun u => (u.setSram m).markFaulted)⟩

theorem captureZeroed_sameButN (h : sameButN s s') : sameOutcomeButN (captureZeroed f s) (captureZeroed f s') := by
  have hpack := packFrame_sameButN (f := f) h
  have hdiag := h.map (g := (State.emit · (.diag .unsupportedFormat)))
  have hshort := h.map (g := State.markRefused)
  obtain ⟨n, rs, rfl⟩ := h.exists_withFile
  by_cases hf : f.fmt ∈ s.config.formats
  · cases hc : covers f with
    | true => rwa [captureZeroed_ready hf hc, captureZeroed_ready (s := s.withFile n rs) hf hc]
    | false => rwa [captureZeroed_short hf hc, captureZeroed_short (s := s.withFile n rs) hf hc]
  · rwa [captureZeroed_unsupported hf, captureZeroed_unsupported (s := s.withFile n rs) hf]

theorem captureFrame_outOfRange (h : s.config.ramPresent = true) (hb : s.config.ramBytes < 0xF00) :
    captureFrame f s = refuse .ramRange s := by
  unfold captureFrame
  rw [if_neg (by simp [h]), if_pos (by rw [outBase_eq, outSize_eq]; omega)]

theorem captureFrame_sameButN (h : sameButN s s') : sameOutcomeButN (captureFrame f s) (captureFrame f s') := by
  have hzero := captureZeroed_sameButN (f := f) (h.map (g := fun u => u.setSram (zeroBuffer u.sram)))
  have hrefused := h.map (g := State.markRefused)
  obtain ⟨n, rs, rfl⟩ := h.exists_withFile
  cases hr : s.config.ramPresent with
  | false => rwa [captureFrame_noRam hr, captureFrame_noRam (s := s.withFile n rs) hr]
  | true =>
    by_cases hb : s.config.ramBytes < 0xF00
    · rwa [captureFrame_outOfRange hr hb, captureFrame_outOfRange (s := s.withFile n rs) hr hb]
    · rwa [captureFrame_withRam hr (not_lt.1 hb), captureFrame_withRam (s := s.withFile n rs) hr (not_lt.1 hb)]

theorem capture_sameButN (h : sameButN s s') : sameOutcomeButN (capture s) (capture s') := by
  have hafter := h.map (g := State.afterRequest)
  obtain ⟨n, rs, rfl⟩ := h.exists_withFile
  cases himg : s.requestedImage with
  | none => rwa [capture_none himg, capture_none (s := s.withFile n rs) himg]
  | some f =>
    rw [capture_some himg, capture_some (s := s.withFile n rs) himg]
    exact captureFrame_sameButN hafter

/-! ### The transactions -/

/-- Past the end of the file a register write does nothing, so a register write is the file's update for every
register. -/
theorem exec_wrCamReg_eq {ign : BitVec 6} {r : BitVec 7} {d : Byte} (h : s.regs.length = s.config.regCount) :
    exec (.wrCamReg ign r d) s = .next (s.setReg r.toNat d) := by
  by_cases hr : r.toNat < s.config.regCount
  · exact exec_wrCamReg_stored hr
  · rw [exec_wrCamReg_dropped (not_lt.1 hr), State.setReg, List.set_eq_of_length_le (by omega)]

theorem exec_wrCamTrigger_sameButN {ign : BitVec 6} {d : Byte} (h : sameButN s s') :
    sameOutcomeButN (exec (.wrCamTrigger ign d) s) (exec (.wrCamTrigger ign d) s') :=
  (capture_sameButN (h.map (g := (State.setDirty · true)))).andThen fun _ _ h' => h'.setReg

theorem exec_rdCamRam_sameButN {off : BitVec 13} (h : sameButN s s') :
    sameOutcomeButN (exec (.rdCamRam off) s) (exec (.rdCamRam off) s') := by
  have hdisabled := h.map (g := State.answerDisabledRead)
  have hbyte := h.map (g := fun u => u.answerRead (u.sram.read (ramModeOffset u off)))
  have hrefused := h.map (g := State.markRefused)
  obtain ⟨n, rs, rfl⟩ := h.exists_withFile
  by_cases hd : s.config.ramPresent = false ∨ s.ramEnable = false
  · rwa [exec_rdCamRam_disabled hd, exec_rdCamRam_disabled (s := s.withFile n rs) hd]
  · obtain ⟨hp, he⟩ : s.config.ramPresent = true ∧ s.ramEnable = true := by simpa using hd
    by_cases hb : ramModeOffset s off < s.config.ramBytes
    · rwa [exec_rdCamRam_inside hp he hb, exec_rdCamRam_inside (s := s.withFile n rs) hp he hb]
    · rwa [exec_rdCamRam_outside hp he (not_lt.1 hb), exec_rdCamRam_outside (s := s.withFile n rs) hp he (not_lt.1 hb)]

theorem exec_wrRamEnable_sameButN {off : BitVec 13} (h : sameButN s s') :
    sameOutcomeButN (exec (.wrRamEnable off) s) (exec (.wrRamEnable off) s') := by
  have hon := h.map (g := fun u => (u.setRamEnable true).emit (.switchRamBank u.ramBankSel))
  obtain ⟨n, rs, rfl⟩ := h.exists_withFile
  cases hr : s.config.ramPresent with
  | false => rwa [exec_wrRamEnable_noRam hr, exec_wrRamEnable_noRam (s := s.withFile n rs) hr]
  | true => rwa [exec_wrRamEnable_withRam hr, exec_wrRamEnable_withRam (s := s.withFile n rs) hr]

theorem exec_sameButN (h : sameButN s s') : sameOutcomeButN (exec i s) (exec i s') := by
  cases i
  case wrRamDisable off => exact h.map (g := (State.setRamEnable · false))
  case wrRamEnable off => exact exec_wrRamEnable_sameButN h
  case wrRamCtlIgnored off d => exact h.map (g := (State.emit · (.diag .ctrlUnrecognized)))
  case wrRomBank off d => exact h.map (g := (State.emit · (.switchRomBank (romBankOf d))))
  case wrRamBank off bank => exact h.map (g := fun u => (u.emit (.switchRamBank bank)).enterRamMode bank)
  case wrRegMode off d => exact h.map (g := State.enterRegisterMode)
  case wrNopW3 | wrNopW4 | wrNopW6 | wrNopW7 => exact h.map (g := (State.emit · (.diag .unmapped)))
  case wrCamIgnored off d => exact h
  case wrCamTrigger ign d => exact exec_wrCamTrigger_sameButN h
  case wrCamReg ign r d =>
    have hset := h.setReg (j := r.toNat) (v := d)
    obtain ⟨-, -, hlen, -, -, hlen', -, -⟩ := h
    rwa [exec_wrCamReg_eq hlen, exec_wrCamReg_eq hlen']
  case rdCamRam off => exact exec_rdCamRam_sameButN h
  case rdCamCtrl ign =>
    have h0 : s'.reg 0 = s.reg 0 := h.reg_eq (by omega)
    have hread := h.map (g := (State.answerRead · (s.reg 0)))
    simp only [exec, execRdCamCtrl, h0]
    exact hread
  case rdCamZero ign r => exact h.map (g := (State.answerRead · 0x00#8))
  case rdUnroutedLo | rdUnroutedW4 | rdUnroutedHi => exact h.map (g := State.markRefused)

/-! ### The step -/

theorem hostStore_sameButN {off : Nat} {v : Byte} (h : sameButN s s') :
    sameOutcomeButN (hostStore off v s) (hostStore off v s') := by
  have hstored := h.map (g := fun u => u.setSram (u.sram.write off v))
  have hrefused := h.map (g := State.markRefused)
  obtain ⟨n, rs, rfl⟩ := h.exists_withFile
  have hbyte : (s.withFile n rs).hasRamByte off = s.hasRamByte off := rfl
  unfold hostStore
  rw [hbyte]
  split
  · exact hstored
  · exact hrefused

theorem hostFollowUp_sameButN (h : sameButN s s') : sameOutcomeButN (hostFollowUp i s) (hostFollowUp i s') := by
  cases i
  case wrCamIgnored off d =>
    have hstore := hostStore_sameButN (off := ramModeOffset s off) (v := d) h
    obtain ⟨n, rs, rfl⟩ := h.exists_withFile
    have hstores : hostStoresWrites (s.withFile n rs) = hostStoresWrites s := rfl
    have hoff : ramModeOffset (s.withFile n rs) off = ramModeOffset s off := rfl
    simp only [hostFollowUp, hstores, hoff]
    split
    · exact hstore
    · exact h
  all_goals exact h

theorem runMove_sameButN {m : HostMove} (h : sameButN s s') : sameOutcomeButN (runMove m s) (runMove m s') := by
  cases m with
  | transaction w =>
    have hmode : s'.registersActive = s.registersActive := by
      obtain ⟨n, rs, rfl⟩ := h.exists_withFile
      rfl
    simp only [runMove, runTransaction, hmode]
    exact (exec_sameButN h).andThen fun _ _ => hostFollowUp_sameButN
  | clearDirty => exact h.map (g := (State.setDirty · false))
  | storeRam off v => exact hostStore_sameButN h

/-- The bounds on N hold of both states, so both configurations are refused or neither. -/
theorem sameButN.configAdmissible_eq (h : sameButN s s') : configAdmissible s'.config = configAdmissible s.config := by
  obtain ⟨hlo, hhi, -, hlo', hhi', -, -, -⟩ := id h
  obtain ⟨n, rs, rfl⟩ := h.exists_withFile
  rw [Bool.eq_iff_iff, configAdmissible_iff, configAdmissible_iff]
  exact ⟨fun ⟨_, _, hrest⟩ => ⟨hlo, hhi, hrest⟩, fun ⟨_, _, hrest⟩ => ⟨hlo', hhi', hrest⟩⟩

/-- Settles O46: every part of a step keeps the relation, and none looks at N but to drop a register write past the
file's end. -/
theorem registerCountUnobservable : Obligations.RegisterCountUnobservable := by
  unfold Obligations.RegisterCountUnobservable
  intro s s' h
  have hinputs : s'.inputs = s.inputs := by
    obtain ⟨n, rs, rfl⟩ := h.exists_withFile
    rfl
  unfold step
  rw [h.configAdmissible_eq, hinputs]
  split
  · exact h.map (g := State.markRefused)
  · cases s.inputs with
    | nil => exact h
    | cons m rest => exact runMove_sameButN (h.map (g := (State.setInputs · rest)))

end Sys2Proof.Machine
end

section
/-! SUPPORT. What a trigger write ends in where its frame is ready, or is refused, and the codes that a completed pixel
loop has met (42_capture.md R140 to R149). -/

namespace Sys2Proof.Machine

variable {s t u : State} {f : Frame} {m : Memory} {code : Nat → Nat → Code}
  {codeOf : Nat → Nat → Except Byte Code} {ps : List (Nat × Nat)}

/-! ### The trigger write, from what its capture answers -/

theorem exec_wrCamTrigger_of_refused (ign : BitVec 6) (d : Byte) {q : Refusal}
    (h : capture (s.setDirty true) = .refused q) : exec (.wrCamTrigger ign d) s = .refused q := by
  rw [exec, execWrCamTrigger, h]
  rfl

theorem exec_wrCamTrigger_of_fault (ign : BitVec 6) (d : Byte) {q : Fault}
    (h : capture (s.setDirty true) = .fault q) : exec (.wrCamTrigger ign d) s = .fault q := by
  rw [exec, execWrCamTrigger, h]
  rfl

/-! ### The codes of the pixels -/

theorem pixelCode_weighted (h : s.config.captureMode = .weighted) (x y : Nat) :
    pixelCode s f x y = .ok (weightedCode s f x y) := by
  unfold pixelCode
  rw [h]

theorem pixelCode_raw {c : Code} {x y : Nat} (h : s.config.captureMode = .raw)
    (hc : rawMap s.config.rawUndefPolicy (pixelLuma f x y) = some c) : pixelCode s f x y = .ok c := by
  unfold pixelCode
  rw [h]
  simp only [hc]

theorem pixelCode_rawUndefined {x y : Nat} (h : s.config.captureMode = .raw)
    (hc : rawMap s.config.rawUndefPolicy (pixelLuma f x y) = none) : pixelCode s f x y = .error (pixelLuma f x y) := by
  unfold pixelCode
  rw [h]
  simp only [hc]

/-- A loop that ran to its end has met a code at every pixel. -/
theorem exists_code_of_complete (h : (packPixels codeOf ps m).2 = none) :
    ∀ p ∈ ps, ∃ c, codeOf p.1 p.2 = .ok c := by
  induction ps generalizing m with
  | nil => nofun
  | cons p ps ih =>
    simp only [packPixels] at h
    split at h
    case h_1 c hc =>
      intro q hq
      rcases List.mem_cons.1 hq with rfl | hq
      · exact ⟨c, hc⟩
      · exact ih h q hq
    case h_2 => cases h

/-! ### A ready frame -/

/-- A capture of a ready frame is the pixel loop on the zeroed buffer. -/
theorem capture_setDirty_ready (hI : Inv s) (hr : frameReady s f) :
    capture (s.setDirty true) =
      packFrame f (((s.setDirty true).afterRequest).setSram (zeroBuffer s.sram)) :=
  capture_ready (s := s.setDirty true) hr hI.bufferFits

/-! ### What the pixel loop leaves on a zeroed buffer -/

variable {ram : Memory}

theorem read_zeroBuffer_inside (h : ram.wf = true) : ∀ a, inBuffer a → (zeroBuffer ram).read a = 0x00#8 := by
  intro a ha
  rw [read_zeroBuffer h, if_pos ha]

theorem read_zeroBuffer_outside (h : ram.wf = true) {a : Nat} (ha : ¬ inBuffer a) :
    (zeroBuffer ram).read a = ram.read a := by
  rw [read_zeroBuffer h, if_neg ha]

/-- The loop over pixels of the frame changes no byte outside the buffer, and neither does the zeroing before it. -/
theorem packPixels_zeroBuffer_outside (h : ram.wf = true) (hps : ∀ p ∈ ps, p ∈ pixelOrder) {a : Nat}
    (ha : ¬ inBuffer a) :
    (packPixels codeOf ps (zeroBuffer ram)).1.read a = ram.read a :=
  (packPixels_outside (zeroBuffer_wf h) (fun p hp => (mem_pixelOrder.1 (hps p hp)).2) ha).trans
    (read_zeroBuffer_outside h ha)

/-- A trigger write completes where every pixel has a code, with the closed form of the codes in the buffer (R150). -/
theorem exec_wrCamTrigger_complete (ign : BitVec 6) (d : Byte) (hI : Inv s) (hr : frameReady s f)
    (hc : ∀ p ∈ pixelOrder, pixelCode s f p.1 p.2 = .ok (code p.1 p.2)) :
    ∃ m : Memory, exec (.wrCamTrigger ign d) s =
        .next { s with dirty := true, regs := s.regs.set 0 (d &&& 0x06#8), images := s.images.tail, sram := m } ∧
      m.wf = true ∧ (∀ a, ¬ inBuffer a → m.read a = s.sram.read a) ∧
      ∀ t, t < 0xE00 → m.read (0x100 + t) = closedFormByte code t := by
  have hwf := packPixels_wf (codeOf := pixelCode s f) (ps := pixelOrder) (zeroBuffer_wf hI.sramWf)
  have hout := fun a => packPixels_zeroBuffer_outside (codeOf := pixelCode s f) (a := a) hI.sramWf fun _ => id
  have hform := fun t => packPixels_closedForm (t := t) (zeroBuffer_wf hI.sramWf) (read_zeroBuffer_inside hI.sramWf) hc
  obtain ⟨m, hm⟩ : ∃ m, packPixels (pixelCode s f) pixelOrder (zeroBuffer s.sram) = (m, none) :=
    ⟨_, Prod.ext rfl (packPixels_complete hc)⟩
  rw [hm] at hwf hout hform
  have hcapture : capture (s.setDirty true) = .next ((s.setDirty true).afterRequest.setSram m) := by
    rw [capture_setDirty_ready hI hr]
    exact packFrame_ok hm
  exact ⟨m, exec_wrCamTrigger_of_capture ign d hcapture, hwf, hout, hform⟩

/-! ### The loop up to a pixel without a code -/

/-- The loop's order is the order of the ranks (R143). -/
theorem pixelOrder_pairwise : pixelOrder.Pairwise fun p q => pixelRank p.1 p.2 < pixelRank q.1 q.2 := by
  unfold pixelOrder
  rw [List.pairwise_flatMap]
  constructor
  · intro y _
    rw [List.pairwise_map]
    exact List.pairwise_lt_range.imp fun h => Nat.add_lt_add_left h _
  · refine List.pairwise_lt_range.imp fun {y y'} hyy p hp q hq => ?_
    obtain ⟨x, hx, rfl⟩ := List.mem_map.1 hp
    obtain ⟨x', -, rfl⟩ := List.mem_map.1 hq
    rw [List.mem_range, frameWidth] at hx
    simp only [pixelRank, frameWidth]
    omega

/-- A pixel of the frame has the pixels of lower rank before it, and no others. -/
theorem exists_pixelOrder_split {x0 y0 : Nat} (hx : x0 < 128) (hy : y0 < 112) :
    ∃ before after, pixelOrder = before ++ (x0, y0) :: after ∧
      ∀ p, p ∈ before ↔ p ∈ pixelOrder ∧ pixelRank p.1 p.2 < pixelRank x0 y0 := by
  obtain ⟨before, after, hsplit⟩ := List.append_of_mem (mem_pixelOrder (p := (x0, y0)).2 ⟨hx, hy⟩)
  refine ⟨before, after, hsplit, fun p => ?_⟩
  have hord := pixelOrder_pairwise
  rw [hsplit, List.pairwise_append, List.pairwise_cons] at hord
  obtain ⟨-, ⟨hafter, -⟩, hbefore⟩ := hord
  rw [hsplit, List.mem_append, List.mem_cons]
  constructor
  · exact fun hp => ⟨.inl hp, hbefore p hp _ List.mem_cons_self⟩
  · rintro ⟨hp | rfl | hp, hlt⟩
    · exact hp
    · exact absurd hlt (lt_irrefl _)
    · exact absurd hlt (hafter p hp).not_gt

/-- The loop stops at a pixel without a code, with the pixels before it packed (R149). -/
theorem packPixels_append_error {x y : Nat} {l : Byte} {qs : List (Nat × Nat)}
    (hc : ∀ p ∈ ps, codeOf p.1 p.2 = .ok (code p.1 p.2)) (he : codeOf x y = .error l) :
    packPixels codeOf (ps ++ (x, y) :: qs) m = ((packPixels codeOf ps m).1, some (x, y, l)) := by
  induction ps generalizing m with
  | nil => simp only [List.nil_append, packPixels, he]
  | cons p ps ih =>
    simp only [List.cons_append, packPixels, hc p List.mem_cons_self]
    exact ih fun q hq => hc q (List.mem_cons_of_mem _ hq)

/-- The closed form looks at pixels of the frame only (R187). -/
theorem closedFormByte_congr {code' : Nat → Nat → Code} {o : Nat} (ho : o < 0xE00)
    (h : ∀ x y, x < 128 → y < 112 → code x y = code' x y) : closedFormByte code o = closedFormByte code' o := by
  apply BitVec.eq_of_getLsbD_eq
  intro i hi
  rw [closedFormByte_bit _ o hi, closedFormByte_bit _ o hi, h _ _ (by omega) (by omega)]

/-- A trigger write ends in the raw fault at the first pixel without a code (R149, R206). -/
theorem exec_wrCamTrigger_fault (ign : BitVec 6) (d : Byte) {x0 y0 : Nat} {l : Byte} (hI : Inv s) (hr : frameReady s f)
    (hx : x0 < 128) (hy : y0 < 112) (he : pixelCode s f x0 y0 = .error l)
    (hc : ∀ x y, x < 128 → y < 112 → pixelRank x y < pixelRank x0 y0 → pixelCode s f x y = .ok (code x y)) :
    ∃ m : Memory, exec (.wrCamTrigger ign d) s =
        .fault (.rawLumaUndefined x0 y0 l
          { s with dirty := true, images := s.images.tail, sram := m, faulted := true }) ∧
      m.wf = true ∧ (∀ a, ¬ inBuffer a → m.read a = s.sram.read a) ∧
      ∀ t, t < 0xE00 → m.read (0x100 + t) =
        closedFormByte (fun x y => if pixelRank x y < pixelRank x0 y0 then code x y else .c000) t := by
  obtain ⟨before, after, hsplit, hmem⟩ := exists_pixelOrder_split hx hy
  have hin : ∀ p ∈ before, p ∈ pixelOrder := fun p hp => ((hmem p).1 hp).1
  have hbefore : ∀ p ∈ before, pixelCode s f p.1 p.2 = .ok (code p.1 p.2) := fun p hp => by
    obtain ⟨hpix, hlt⟩ := (hmem p).1 hp
    obtain ⟨hpx, hpy⟩ := mem_pixelOrder.1 hpix
    exact hc _ _ hpx hpy hlt
  have hwf := packPixels_wf (codeOf := pixelCode s f) (ps := before) (zeroBuffer_wf hI.sramWf)
  have hout := fun a => packPixels_zeroBuffer_outside (codeOf := pixelCode s f) (a := a) hI.sramWf hin
  have hform := fun t => packPixels_closedForm_of_mem (t := t) (zeroBuffer_wf hI.sramWf)
    (read_zeroBuffer_inside hI.sramWf) hin hbefore
  have hloop : packPixels (pixelCode s f) pixelOrder (zeroBuffer s.sram) =
      ((packPixels (pixelCode s f) before (zeroBuffer s.sram)).1, some (x0, y0, l)) := by
    rw [hsplit]
    exact packPixels_append_error hbefore he
  generalize (packPixels (pixelCode s f) before (zeroBuffer s.sram)).1 = m at hwf hout hform hloop
  have hcapture : capture (s.setDirty true) = raiseFault x0 y0 l ((s.setDirty true).afterRequest.setSram m) := by
    rw [capture_setDirty_ready hI hr]
    exact packFrame_fault hloop
  refine ⟨m, exec_wrCamTrigger_of_fault ign d hcapture, hwf, hout, fun t ht => (hform t ht).trans ?_⟩
  refine closedFormByte_congr ht fun x y hpx hpy => ?_
  have hiff : (x, y) ∈ before ↔ pixelRank x y < pixelRank x0 y0 :=
    (hmem (x, y)).trans (and_iff_right (mem_pixelOrder.2 ⟨hpx, hpy⟩))
  simp only [hiff]

/-! ### Frames that are not packed, and what a completed trigger write says of its frame -/

theorem capture_noRam (h : s.requestedImage = some f) (hr : s.config.ramPresent = false) :
    capture s = refuse .noRam s.afterRequest := (capture_some h).trans (captureFrame_noRam hr)

/-- The buffer is zeroed before the coverage check fails (R141, R142). -/
theorem capture_short (h : s.requestedImage = some f) (hr : s.config.ramPresent = true) (hb : 0xF00 ≤ s.config.ramBytes)
    (hf : f.fmt ∈ s.config.formats) (hc : covers f = false) :
    capture s = refuse .shortFrame (s.afterRequest.setSram (zeroBuffer s.sram)) := by
  have hzero : captureFrame f s.afterRequest = captureZeroed f (s.afterRequest.setSram (zeroBuffer s.sram)) :=
    captureFrame_withRam hr hb
  rw [capture_some h, hzero]
  exact captureZeroed_short hf hc

/-- A trigger write that completes with a frame of a supported format has packed it: the frame was ready, and every
pixel had a code. -/
theorem exists_code_of_trigger_next (ign : BitVec 6) {d : Byte} (h : exec (.wrCamTrigger ign d) s = .next t)
    (hsome : s.requestedImage = some f) (hf : f.fmt ∈ s.config.formats) :
    frameReady s f ∧ ∃ code : Nat → Nat → Code, ∀ p ∈ pixelOrder, pixelCode s f p.1 p.2 = .ok (code p.1 p.2) := by
  obtain ⟨u, hu, -⟩ := execWrCamTrigger_next ign h
  rw [capture_some (s := s.setDirty true) hsome] at hu
  obtain ⟨hram, -, hu⟩ := captureFrame_next hu
  rcases captureZeroed_next hu with ⟨hnf, -⟩ | ⟨-, hcov, hu⟩
  · exact absurd hf hnf
  · obtain ⟨m, hm, -⟩ := packFrame_next hu
    have hall := exists_code_of_complete (congrArg Prod.snd hm)
    refine ⟨⟨hsome, hram, hf, hcov⟩, fun x y => (pixelCode s f x y).toOption.getD .c000, fun p hp => ?_⟩
    obtain ⟨c, hc⟩ := hall p hp
    have hcode : pixelCode s f p.1 p.2 = .ok c := hc
    simp only [hcode, Except.toOption, Option.getD_some]

/-- A trigger write that completes with a frame of an unsupported format leaves the zeroed buffer (R146). -/
theorem sram_of_trigger_next_unsupported (ign : BitVec 6) {d : Byte} (h : exec (.wrCamTrigger ign d) s = .next t)
    (hsome : s.requestedImage = some f) (hf : f.fmt ∉ s.config.formats) : t.sram = zeroBuffer s.sram := by
  obtain ⟨u, hu, rfl⟩ := execWrCamTrigger_next ign h
  rw [capture_some (s := s.setDirty true) hsome] at hu
  obtain ⟨-, -, hu⟩ := captureFrame_next hu
  rcases captureZeroed_next hu with ⟨-, rfl⟩ | ⟨hmem, -, -⟩
  · rfl
  · exact absurd hmem hf

end Sys2Proof.Machine
end

section
/-! PROOF. Trigger writes: their frame, the completed captures, the raw fault, the refusals, and the capture's freedom
from what the buffer held before (40_bus_writes.md R110, 42_capture.md, 60_exceptions.md R206, R207). -/

namespace Sys2Proof.Machine

variable {ra : Bool} {w : TWord}

/-! ### The frame of a trigger write -/

theorem triggerStored_bit {d : Byte} : (triggerStored d).getLsbD 0 = false := by
  simp [triggerStored]

/-- Row 10 of R74, before row 11. -/
theorem decode_eq_wrCamTrigger_iff : isWriteTo 5#3 w ∧ ra = true ∧ fieldM7 w = 0#7 ∧ (fieldD w).getLsbD 0 = true ↔
    decode ra w = .wrCamTrigger (fieldIgn w) (fieldD w) := by
  refine window_and_iff_decode_eq rfl fun ⟨hrw, hwin⟩ => ?_
  rw [decode, if_pos hrw, decodeWrite_windowFive hwin]
  split_ifs with hra htrig
  · exact iff_of_false (fun h => absurd h.1 (by simp [hra])) nofun
  · exact iff_of_true ⟨eq_true_of_ne_false hra, htrig⟩ rfl
  · exact iff_of_false (fun h => htrig h.2) nofun

/-- Settles O23: the capture changes sram, the history and the image source only, and the write's own store is
regs[0]. -/
theorem triggerWriteFrame : Obligations.TriggerWriteFrame := by
  unfold Obligations.TriggerWriteFrame
  refine ⟨fun ign d s t hwf hlen hN h => ?_, fun ra w => ?_⟩
  · obtain ⟨u, hu, rfl⟩ := execWrCamTrigger_next ign h
    have hframe := capture_frame hu
    have hregs : u.regs = s.regs := by rw [hframe]; rfl
    have hreg : ∀ i, (u.setReg 0 (triggerStored d)).reg i = if i = 0 then triggerStored d else s.reg i := by
      intro i
      rw [State.reg_setReg (by rw [hregs]; omega), State.reg, hregs, State.reg]
    refine ⟨by rw [State.setReg_dirty, hframe]; rfl, hreg 0, ?_, fun i hi => (hreg i).trans (if_neg hi), ?_,
      fun a ha => capture_outside (s := s.setDirty true) (t := u) hu hwf ha, ?_⟩
    · rw [hreg 0, if_pos rfl]
      exact triggerStored_bit
    · rw [State.setReg_regs, List.length_set, hregs]
    · rw [hframe]
      rfl
  · rw [← decode_eq_wrCamTrigger_iff]
    refine (and_congr_left' (register_fit_iff (rw := true) (n := 5#3) (md := 0x01#8) (d := 0x01#8))).trans ?_
    exact ⟨fun ⟨⟨hw, hm, hd⟩, hra⟩ => ⟨hw, hra, hm, and_one_eq_one_iff.1 hd⟩,
      fun ⟨hw, hra, hm, hd⟩ => ⟨⟨hw, hm, and_one_eq_one_iff.2 hd⟩, hra⟩⟩

/-! ### Completed captures -/

/-- Settles O26: a weighted capture has a code for every pixel. -/
theorem weightedCaptureCompletes : Obligations.WeightedCaptureCompletes := by
  unfold Obligations.WeightedCaptureCompletes
  intro ign d s f hI hmode hr
  exact exec_wrCamTrigger_complete ign d hI hr fun p _ => pixelCode_weighted hmode p.1 p.2

/-- Settles O27: the raw codes are given for every pixel of the frame. -/
theorem rawCaptureCompletes : Obligations.RawCaptureCompletes := by
  unfold Obligations.RawCaptureCompletes
  intro ign d s f code hI hmode hr hcode
  refine exec_wrCamTrigger_complete ign d hI hr fun p hp => ?_
  obtain ⟨hx, hy⟩ := mem_pixelOrder.1 hp
  exact pixelCode_raw hmode (hcode _ _ hx hy)

/-! ### The raw fault -/

/-- Settles O28: under FAULT the luminance has no code, and the pixels of lower rank are those before it in the loop. -/
theorem rawFaultAtFirstUndefinedPixel : Obligations.RawFaultAtFirstUndefinedPixel := by
  unfold Obligations.RawFaultAtFirstUndefinedPixel
  intro ign d s f code x0 y0 hI hmode hpolicy hr hx hy h0 h85 h170 h255 hcode
  have hnone : rawMap s.config.rawUndefPolicy (pixelLuma f x0 y0) = none := by
    rw [hpolicy]
    exact rawLevelCode_none h0 h85 h170 h255
  refine exec_wrCamTrigger_fault ign d hI hr hx hy (pixelCode_rawUndefined hmode hnone) fun x y hpx hpy hlt => ?_
  refine pixelCode_raw hmode ?_
  rw [hpolicy]
  exact hcode x y hpx hpy hlt

/-! ### Refusals -/

/-- Settles O29: the missing RAM is found before the zeroing, the short frame after it. -/
theorem captureRefusals : Obligations.CaptureRefusals := by
  unfold Obligations.CaptureRefusals
  refine ⟨fun ign d s f hsome hram => ?_, fun ign d s f hI hsome hram hfmt hshort => ?_⟩
  · exact exec_wrCamTrigger_of_refused ign d (capture_noRam (s := s.setDirty true) hsome hram)
  · have hcov : covers f = false := by
      rw [← Bool.not_eq_true, covers_iff]
      omega
    have hcapture := capture_short (s := s.setDirty true) hsome hram hI.bufferFits hfmt hcov
    exact ⟨zeroBuffer s.sram, exec_wrCamTrigger_of_refused ign d hcapture, zeroBuffer_wf hI.sramWf,
      fun _ => read_zeroBuffer hI.sramWf⟩

/-! ### Identical captures -/

/-- Settles O30: both buffers are zero, or both are the closed form of the same codes. -/
theorem identicalCapturesIdenticalOutput : Obligations.IdenticalCapturesIdenticalOutput := by
  unfold Obligations.IdenticalCapturesIdenticalOutput
  intro ign ign' d d' s s' t t' f hI hI' hconfig hregs hsome hsome' ht ht' a ha
  by_cases hf : f.fmt ∈ s.config.formats
  · obtain ⟨hr, code, hc⟩ := exists_code_of_trigger_next ign ht hsome hf
    obtain ⟨hr', -⟩ := exists_code_of_trigger_next ign' ht' hsome' (hconfig ▸ hf)
    have hcode : pixelCode s' f = pixelCode s f :=
      pixelCode_congr (fun i hi => (hregs i (by omega)).symm) (by rw [hconfig]) (by rw [hconfig])
    obtain ⟨m, hm, -, -, hform⟩ := exec_wrCamTrigger_complete ign d hI hr hc
    obtain ⟨m', hm', -, -, hform'⟩ := exec_wrCamTrigger_complete ign' d' hI' hr' (hcode ▸ hc)
    cases ht.symm.trans hm
    cases ht'.symm.trans hm'
    obtain ⟨o, rfl⟩ : ∃ o, a = 0x100 + o := ⟨a - 0x100, by omega⟩
    exact (hform o (by omega)).trans (hform' o (by omega)).symm
  · rw [sram_of_trigger_next_unsupported ign ht hsome hf,
      sram_of_trigger_next_unsupported ign' ht' hsome' (hconfig ▸ hf),
      read_zeroBuffer_inside hI.sramWf a ha, read_zeroBuffer_inside hI'.sramWf a ha]

end Sys2Proof.Machine
end

section
/-! SUPPORT. What an instruction leaves as it was, field by field, where it answers a next state; and which words are
trigger writes. -/

namespace Sys2Proof.Machine

variable {s t : State} {i : Instr} {ra : Bool} {w : TWord}

/-! ### The configuration, the marks and the history -/

/-- No instruction changes the session's parameters or a sticky mark (R6, R36). -/
theorem exec_config_marks (h : exec i s = .next t) :
    t.config = s.config ∧ t.faulted = s.faulted ∧ t.refused = s.refused := by
  rcases exec_next_cases h with ⟨_, _, -, rfl⟩ | ⟨_, _, -, rfl⟩ | ⟨_, _, u, -, hu, rfl⟩ | ⟨_, _, _, -, rfl⟩ | ht
  · exact ⟨rfl, rfl, rfl⟩
  · exact ⟨rfl, rfl, rfl⟩
  · have hframe := capture_frame hu
    exact ⟨by rw [State.setReg_config, hframe]; rfl, by rw [State.setReg_faulted, hframe]; rfl,
      by rw [State.setReg_refused, hframe]; rfl⟩
  · split <;> exact ⟨rfl, rfl, rfl⟩
  · rw [ht]
    exact ⟨rfl, rfl, rfl⟩

/-- A capture emits at most the diagnostic of an unsupported format (R146, R202). -/
theorem capture_hist (h : capture s = .next t) : ∃ es, t.hist = s.hist ++ es ∧ es.length ≤ 1 := by
  rcases capture_next h with ⟨-, rfl⟩ | ⟨f, -, h⟩
  · exact ⟨[], (List.append_nil _).symm, Nat.zero_le _⟩
  · rcases captureFrame_cases h with ⟨-, ⟨-, rfl⟩ | ⟨m, _, -, rfl⟩⟩
    · exact ⟨[.diag .unsupportedFormat], rfl, le_refl _⟩
    · exact ⟨[], (List.append_nil _).symm, Nat.zero_le _⟩

/-- An instruction emits at most one event, and a read none (R11, R61, R210). -/
theorem exec_hist (h : exec i s = .next t) :
    ∃ es, t.hist = s.hist ++ es ∧ es.length ≤ 1 ∧ (i.writeWindow = none → es = []) := by
  have hnone : t.hist = s.hist → ∃ es, t.hist = s.hist ++ es ∧ es.length ≤ 1 ∧ (i.writeWindow = none → es = []) :=
    fun e => ⟨[], e.trans (List.append_nil _).symm, Nat.zero_le _, fun _ => rfl⟩
  cases i
  case wrRamEnable off =>
    simp only [exec, execWrRamEnable] at h
    split at h <;> cases h
    · exact ⟨[.switchRamBank s.ramBankSel], rfl, le_refl _, nofun⟩
    · exact hnone rfl
  case wrRamCtlIgnored off d => cases h; exact ⟨[.diag .ctrlUnrecognized], rfl, le_refl _, nofun⟩
  case wrRomBank off d => cases h; exact ⟨[.switchRomBank (romBankOf d)], rfl, le_refl _, nofun⟩
  case wrRamBank off bank => cases h; exact ⟨[.switchRamBank bank], rfl, le_refl _, nofun⟩
  case wrNopW3 | wrNopW4 | wrNopW6 | wrNopW7 => cases h; exact ⟨[.diag .unmapped], rfl, le_refl _, nofun⟩
  case wrCamTrigger ign d =>
    obtain ⟨u, hu, rfl⟩ := execWrCamTrigger_next ign h
    obtain ⟨es, hes, hlen⟩ := capture_hist hu
    exact ⟨es, hes, hlen, nofun⟩
  case wrCamReg ign r d =>
    simp only [exec, execWrCamReg] at h
    split at h <;> cases h <;> exact hnone rfl
  case rdCamRam off =>
    simp only [exec, execRdCamRam] at h
    split_ifs at h <;> cases h <;> exact hnone rfl
  case rdUnroutedLo | rdUnroutedW4 | rdUnroutedHi => cases h
  all_goals
    cases h
    exact hnone rfl

/-! ### The control bits -/

/-- What an instruction can do to ramEnable (R29): clear it (R100), set it where there is a RAM (R101), or leave it. -/
theorem exec_ramEnable_cases (h : exec i s = .next t) :
    (∃ off, i = .wrRamDisable off ∧ t.ramEnable = false) ∨
    (∃ off, i = .wrRamEnable off ∧ t.ramEnable = (s.config.ramPresent || s.ramEnable)) ∨
    ((∀ off, i ≠ .wrRamDisable off) ∧ (∀ off, i ≠ .wrRamEnable off) ∧ t.ramEnable = s.ramEnable) := by
  cases i
  case wrRamDisable off => cases h; exact .inl ⟨off, rfl, rfl⟩
  case wrRamEnable off =>
    refine .inr (.inl ⟨off, rfl, ?_⟩)
    cases hr : s.config.ramPresent with
    | true => cases (exec_wrRamEnable_withRam hr).symm.trans h; rfl
    | false => cases (exec_wrRamEnable_noRam hr).symm.trans h; rfl
  case wrCamTrigger ign d =>
    obtain ⟨u, hu, rfl⟩ := execWrCamTrigger_next ign h
    exact .inr (.inr ⟨nofun, nofun, by rw [State.setReg_ramEnable, capture_frame hu]; rfl⟩)
  case wrCamReg ign r d =>
    simp only [exec, execWrCamReg] at h
    split at h <;> cases h <;> exact .inr (.inr ⟨nofun, nofun, rfl⟩)
  case rdCamRam off =>
    simp only [exec, execRdCamRam] at h
    split_ifs at h <;> cases h <;> exact .inr (.inr ⟨nofun, nofun, rfl⟩)
  case rdUnroutedLo | rdUnroutedW4 | rdUnroutedHi => cases h
  all_goals
    cases h
    exact .inr (.inr ⟨nofun, nofun, rfl⟩)

/-- No instruction but window 2's changes the bank or the direct mapping (R30, R31). -/
theorem exec_bank_map (h : exec i s = .next t) (hi : i.writeWindow ≠ some 2#3) :
    t.ramBankSel = s.ramBankSel ∧ t.directRamMap = s.directRamMap := by
  rcases exec_next_cases h with ⟨_, _, rfl, -⟩ | ⟨_, _, rfl, -⟩ | ⟨_, _, u, -, hu, rfl⟩ | ⟨_, _, _, -, rfl⟩ | ht
  · exact absurd rfl hi
  · exact absurd rfl hi
  · have hframe := capture_frame hu
    exact ⟨by rw [State.setReg_ramBankSel, hframe]; rfl, by rw [State.setReg_directRamMap, hframe]; rfl⟩
  · split <;> exact ⟨rfl, rfl⟩
  · rw [ht]
    exact ⟨rfl, rfl⟩

/-! ### The dirty flag and cartridge RAM -/

/-- No instruction but a trigger write changes dirty or sram (R32, R53). -/
theorem exec_dirty_sram (h : exec i s = .next t) (hi : ∀ ign d, i ≠ .wrCamTrigger ign d) :
    t.dirty = s.dirty ∧ t.sram = s.sram := by
  rcases exec_next_cases h with ⟨_, _, -, rfl⟩ | ⟨_, _, -, rfl⟩ | ⟨_, _, _, rfl, -⟩ | ⟨_, _, _, -, rfl⟩ | ht
  · exact ⟨rfl, rfl⟩
  · exact ⟨rfl, rfl⟩
  · exact absurd rfl (hi _ _)
  · split <;> exact ⟨rfl, rfl⟩
  · rw [ht]
    exact ⟨rfl, rfl⟩

theorem exec_wrCamTrigger_dirty {ign : BitVec 6} {d : Byte} (h : exec (.wrCamTrigger ign d) s = .next t) :
    t.dirty = true := by
  obtain ⟨u, hu, rfl⟩ := execWrCamTrigger_next ign h
  rw [State.setReg_dirty, capture_frame hu]
  rfl

theorem exec_outside (h : exec i s = .next t) (hwf : s.sram.wf = true) {a : Nat} (ha : ¬ inBuffer a) :
    t.sram.read a = s.sram.read a := by
  by_cases hi : ∀ ign d, i ≠ .wrCamTrigger ign d
  · rw [(exec_dirty_sram h hi).2]
  · push Not at hi
    obtain ⟨ign, d, rfl⟩ := hi
    obtain ⟨u, hu, rfl⟩ := execWrCamTrigger_next ign h
    exact capture_outside (s := s.setDirty true) (t := u) hu hwf ha

/-- The words that decode to WR_CAM_TRIGGER are the trigger writes (R110). -/
theorem isTrigger_iff : isTrigger ra w ↔ ∃ ign d, decode ra w = .wrCamTrigger ign d := by
  constructor
  · rintro ⟨hra, hw, hm, hd⟩
    exact ⟨_, _, decode_eq_wrCamTrigger_iff.1 ⟨hw, hra, hm, hd⟩⟩
  · rintro ⟨ign, d, h⟩
    have hw : isWriteTo 5#3 w := writeWindow_decode_eq_some.1 (congrArg Instr.writeWindow h)
    rw [decode, if_pos hw.1, decodeWrite_windowFive hw.2] at h
    split_ifs at h with hra htrig
    exact ⟨eq_true_of_ne_false hra, hw, htrig⟩

end Sys2Proof.Machine
end

section
/-! PROOF. Rules of the whole machine: what a step keeps, and who writes the control bits, dirty, the history and
cartridge RAM (10_state.md, 20_memory.md, 60_exceptions.md). -/

namespace Sys2Proof.Machine

variable {s t : State} {i : Instr} {ra : Bool} {w : TWord}

/-! ### The configuration, the marks and the history -/

/-- Settles O55: only the instruction that a bus access decodes to emits, and a read emits nothing. -/
theorem atMostOneEvent : Obligations.AtMostOneEvent := by
  unfold Obligations.AtMostOneEvent
  intro s t h
  rcases step_next_cases h with ⟨hn, ht⟩ | ⟨w, rest, u, hw, hu, ht⟩
  · exact ⟨[], by rw [ht, List.append_nil], Nat.zero_le _, fun _ => rfl, fun _ _ _ => rfl⟩
  · obtain ⟨es, hes, hlen, hread⟩ := exec_hist hu
    refine ⟨es, by rw [ht]; exact hes, hlen, fun hn => ?_, fun w' hw' hrw => hread ?_⟩
    · rw [hn] at hw
      cases hw
    · obtain rfl : w = w' := Option.some.inj (hw.symm.trans hw')
      rw [decode, hrw]
      exact writeWindow_decodeRead

/-- Settles O51: neither an instruction nor a move of the host writes them, and the history is only appended to. -/
theorem configurationAndMarksKept : Obligations.ConfigurationAndMarksKept := by
  unfold Obligations.ConfigurationAndMarksKept
  intro s t h
  obtain ⟨es, hes, -⟩ := atMostOneEvent s t h
  rcases step_next_cases h with ⟨-, ht⟩ | ⟨w, rest, u, -, hu, ht⟩
  · exact ⟨by rw [ht], by rw [ht], by rw [ht], es, hes⟩
  · obtain ⟨hc, hf, hr⟩ := exec_config_marks hu
    exact ⟨by rw [ht]; exact hc, by rw [ht]; exact hf, by rw [ht]; exact hr, es, hes⟩

/-! ### The control bits -/

/-- What a window-2 write leaves in the bank and the direct mapping (R104, R105). -/
theorem exec_windowTwo_bank_map (hw : isWriteTo 2#3 w) (h : exec (decode ra w) s = .next t) :
    t.ramBankSel = (if (fieldD w).toNat < 0x10 then (fieldD w).extractLsb' 0 4 else s.ramBankSel) ∧
      t.directRamMap = decide ((fieldD w).toNat < 0x10) := by
  rw [decode_windowTwo hw] at h
  split at h
  case isTrue hd =>
    cases h
    exact ⟨(if_pos hd).symm, (decide_eq_true hd).symm⟩
  case isFalse hd =>
    cases h
    exact ⟨(if_neg hd).symm, (decide_eq_false hd).symm⟩

/-- What a bus access leaves in ramEnable (R100, R101). -/
theorem exec_decode_ramEnable (h : exec (decode ra w) s = .next t) :
    (isWriteTo 0#3 w ∧ fieldD w = 0x00#8 → t.ramEnable = false) ∧
    (isWriteTo 0#3 w ∧ fieldD w = 0x0A#8 → t.ramEnable = (s.config.ramPresent || s.ramEnable)) ∧
    (¬ (isWriteTo 0#3 w ∧ (fieldD w = 0x00#8 ∨ fieldD w = 0x0A#8)) → t.ramEnable = s.ramEnable) := by
  by_cases hw : isWriteTo 0#3 w
  · rw [decode_windowZero hw] at h
    split_ifs at h with h0 hA
    · cases h
      exact ⟨fun _ => rfl, fun hc => absurd (h0.symm.trans hc.2) (by decide), fun hn => absurd ⟨hw, .inl h0⟩ hn⟩
    · obtain ⟨_, hi, -⟩ | ⟨_, -, ht⟩ | ⟨-, hi, -⟩ := exec_ramEnable_cases h
      · cases hi
      · exact ⟨fun hc => absurd hc.2 h0, fun _ => ht, fun hn => absurd ⟨hw, .inr hA⟩ hn⟩
      · exact absurd rfl (hi _)
    · cases h
      exact ⟨fun hc => absurd hc.2 h0, fun hc => absurd hc.2 hA, fun _ => rfl⟩
  · have hwin : (decode ra w).writeWindow ≠ some 0#3 := mt writeWindow_decode_eq_some.1 hw
    refine ⟨fun hc => absurd hc.1 hw, fun hc => absurd hc.1 hw, fun _ => ?_⟩
    obtain ⟨_, hi, -⟩ | ⟨_, hi, -⟩ | ⟨-, -, ht⟩ := exec_ramEnable_cases h
    · exact absurd (congrArg Instr.writeWindow hi) hwin
    · exact absurd (congrArg Instr.writeWindow hi) hwin
    · exact ht

/-- Settles O53: a bus access writes the bits of the window it goes to, and nothing else writes them. -/
theorem controlBitsWriters : Obligations.ControlBitsWriters := by
  unfold Obligations.ControlBitsWriters
  intro s t h
  rcases step_next_cases h with ⟨hn, ht⟩ | ⟨w, rest, u, hw, hu, ht⟩
  · refine ⟨fun w hw => ?_, fun _ => by rw [ht], fun _ => by rw [ht], fun _ => by rw [ht]⟩
    rw [hn] at hw
    cases hw
  · rw [ht, State.setSram_ramEnable, State.setSram_ramBankSel, State.setSram_directRamMap, hw]
    simp only [Option.some.injEq, forall_eq']
    obtain ⟨hoff, hon, hkeep⟩ := exec_decode_ramEnable hu
    by_cases h2 : isWriteTo 2#3 w
    · obtain ⟨hbank, hmap⟩ := exec_windowTwo_bank_map h2 hu
      refine ⟨⟨hoff, hon, fun hc => ?_, fun _ => hmap⟩, hkeep, fun hn => ?_, fun hn => absurd h2 hn⟩
      · rw [hbank, if_pos hc.2, BitVec.extractLsb'_toNat, Nat.shiftRight_zero, Nat.mod_eq_of_lt hc.2]
      · rw [hbank, if_neg fun hlt => hn ⟨h2, hlt⟩]
        rfl
    · obtain ⟨hbank, hmap⟩ := exec_bank_map hu (mt writeWindow_decode_eq_some.1 h2)
      exact ⟨⟨hoff, hon, fun hc => absurd hc.1 h2, fun hc => absurd hc h2⟩, hkeep, fun _ => hbank, fun _ => hmap⟩

/-! ### The dirty flag -/

/-- What a bus access leaves in dirty (R110). -/
theorem exec_decode_dirty (h : exec (decode ra w) s = .next t) :
    (isTrigger ra w → t.dirty = true) ∧ (¬ isTrigger ra w → t.dirty = s.dirty) := by
  constructor
  · intro hw
    obtain ⟨ign, d, hi⟩ := isTrigger_iff.1 hw
    exact exec_wrCamTrigger_dirty (hi ▸ h)
  · intro hw
    exact (exec_dirty_sram h fun ign d hi => hw (isTrigger_iff.2 ⟨ign, d, hi⟩)).1

/-- Settles O54: among the transactions only the trigger write touches dirty, and among the host's moves only the
clear. -/
theorem dirtySetByTriggersClearedByHost : Obligations.DirtySetByTriggersClearedByHost := by
  unfold Obligations.DirtySetByTriggersClearedByHost
  intro s t h
  obtain ⟨-, ⟨hin, rfl⟩ | ⟨m, rest, hin, ⟨w, rfl, h⟩ | ⟨rfl, rfl⟩ | ⟨off, v, rfl, h⟩⟩⟩ := step_next h
  · simp [State.nextWord, hin]
  · obtain ⟨u, hu, hf⟩ := runTransaction_next h
    have htu : t.dirty = u.dirty := by
      rcases hostFollowUp_next hf with rfl | ⟨_, _, -, -, -, rfl⟩ <;> rfl
    obtain ⟨hset, hkeep⟩ := exec_decode_dirty hu
    simpa [State.nextWord, hin, htu] using And.intro hset hkeep
  · simp [State.nextWord, hin]
  · obtain ⟨-, rfl⟩ := hostStore_next h
    simp [State.nextWord, hin]

/-! ### Cartridge RAM -/

theorem inputs_of_nextWord (h : s.nextWord = some w) : ∃ rest, s.inputs = .transaction w :: rest := by
  unfold State.nextWord at h
  split at h
  case h_1 w' rest hin =>
    cases h
    exact ⟨rest, hin⟩
  all_goals cases h

/-- A host that serves no window-5 write itself has no sequel (D25). -/
theorem hostFollowUp_none (h : hostFollowUp i s = .next t) (hn : s.config.hostRamWrite = .none) : t = s := by
  rcases hostFollowUp_next h with rfl | ⟨_, _, -, hst, -, -⟩
  · rfl
  · rw [hostStoresWrites_iff, hn] at hst
    cases hst.1

/-- Settles O56: without the host's own store the step leaves what the instruction leaves. -/
theorem onlyCapturesWriteRam : Obligations.OnlyCapturesWriteRam := by
  unfold Obligations.OnlyCapturesWriteRam
  intro s t w hwf hnone hw h
  obtain ⟨rest, hin⟩ := inputs_of_nextWord hw
  rw [step_move (step_next h).1 hin] at h
  obtain ⟨u, hu, hf⟩ := runTransaction_next h
  have hconfig : u.config.hostRamWrite = .none := by
    rw [(exec_config_marks hu).1]
    exact hnone
  obtain rfl : t = u := hostFollowUp_none hf hconfig
  refine ⟨fun a ha => exec_outside (s := s.setInputs rest) hu hwf ha, fun hn => ?_⟩
  exact (exec_dirty_sram hu fun ign d hi => hn (isTrigger_iff.2 ⟨ign, d, hi⟩)).2

end Sys2Proof.Machine
end

section
/-! PROOF. The machine's invariant: every step keeps it, and session start meets it (10_state.md R20, R22, R31, R40;
20_memory.md R52; 60_exceptions.md R205, R208). -/

namespace Sys2Proof.Machine

variable {s t : State} {i : Instr}

/-! ### The step -/

/-- A register write keeps the invariant where CTRL's bit 0 stays clear (R20, R22). -/
theorem Inv.setReg {j : Nat} {v : Byte} (h : Inv s) (hv : j = 0 → v.getLsbD 0 = false) : Inv (s.setReg j v) := by
  have hfit := h.regsFit
  obtain ⟨hc, hlen, hmap, hbit, hen, hwf, hin⟩ := h
  refine ⟨hc, by rw [State.setReg_regs, List.length_set, hlen, State.setReg_config], hmap, ?_, hen, hwf, hin⟩
  by_cases hj : j = 0
  · rw [hj, State.reg_setReg (by omega), if_pos rfl]
    exact hv hj
  · rw [State.reg_setReg_ne (Ne.symm hj)]
    exact hbit

theorem Inv.setSram {m : Memory} (h : Inv s) (hwf : m.wf = true) (hin : m.within s.config.ramBytes = true) :
    Inv (s.setSram m) := by
  obtain ⟨hc, hlen, hmap, hbit, hen, -, -⟩ := h
  exact ⟨hc, hlen, hmap, hbit, hen, hwf, hin⟩

/-- A store of a byte that exists keeps the invariant (R52). -/
theorem Inv.storeByte {off : Nat} {v : Byte} (h : Inv s) (hb : s.hasRamByte off = true) :
    Inv (s.setSram (s.sram.write off v)) := by
  obtain ⟨-, -, -, -, -, hwf, hin⟩ := id h
  exact h.setSram (Memory.write_wf hwf) (Memory.within_write hin (hasRamByte_iff.1 hb).2)

theorem Inv.capture (h : Inv s) (hu : capture s = .next t) : Inv t := by
  obtain ⟨hc, hlen, hmap, hbit, hen, hwf, hin⟩ := h
  have hframe := capture_frame hu
  have hwf' := capture_wf hu hwf
  have hin' := capture_within hu hin
  rw [hframe] at hwf' hin' ⊢
  exact ⟨hc, hlen, hmap, hbit, hen, hwf', hin'⟩

/-- A well-formed instruction keeps the invariant: a register write that would set CTRL's bit 0 is a trigger write, and
ramEnable is set only where there is a RAM. -/
theorem Inv.exec (h : Inv s) (hi : i.wellFormed = true) (hu : exec i s = .next t) : Inv t := by
  obtain ⟨hc, hlen, hmap, hbit, hen, hwf, hin⟩ := id h
  obtain ⟨_, _, -, rfl⟩ | ⟨_, _, -, rfl⟩ | ⟨_, d, u, rfl, hcap, rfl⟩ | ⟨_, r, d, rfl, rfl⟩ | ht := exec_next_cases hu
  · exact ⟨hc, hlen, rfl, hbit, hen, hwf, hin⟩
  · exact ⟨hc, hlen, rfl, hbit, hen, hwf, hin⟩
  · have hIu : Inv u := Inv.capture (s := s.setDirty true) h hcap
    exact hIu.setReg fun _ => triggerStored_bit
  · split
    · refine h.setReg fun hr0 => ?_
      have hr : r = 0#7 := BitVec.eq_of_toNat_eq hr0
      simpa [Instr.wellFormed, hr] using hi
    · exact h
  · have hen' : s.config.ramPresent = false → t.ramEnable = false := fun hr => by
      obtain ⟨_, -, hoff⟩ | ⟨_, -, hon⟩ | ⟨-, -, hkeep⟩ := exec_ramEnable_cases hu
      · exact hoff
      · rw [hon, hr, hen hr]
        rfl
      · rw [hkeep, hen hr]
    rw [ht]
    exact ⟨hc, hlen, hmap, hbit, hen', hwf, hin⟩

/-- Settles O47: the instruction that a word decodes to is well formed, and the host stores only bytes that exist. -/
theorem stepKeepsInvariant : Obligations.StepKeepsInvariant := by
  unfold Obligations.StepKeepsInvariant
  intro s t hI h
  obtain ⟨-, ⟨-, rfl⟩ | ⟨m, rest, -, ⟨w, rfl, h⟩ | ⟨rfl, rfl⟩ | ⟨off, v, rfl, h⟩⟩⟩ := step_next h
  · exact hI
  · obtain ⟨u, hu, hf⟩ := runTransaction_next h
    have hIu : Inv u := Inv.exec (s := s.setInputs rest) hI (decodedIsWellFormed _ _).1 hu
    rcases hostFollowUp_next hf with rfl | ⟨_, _, -, -, hb, rfl⟩
    · exact hIu
    · exact hIu.storeByte hb
  · exact hI
  · obtain ⟨hb, rfl⟩ := hostStore_next h
    exact Inv.storeByte (s := s.setInputs rest) hI hb

/-! ### Session start -/

theorem launch_reg {c : Config} {m : Memory} {j : Nat} : (State.launch c m).reg j = 0x00#8 := by
  have hregs : (State.launch c m).regs = List.replicate c.regCount 0x00#8 := rfl
  rw [State.reg, hregs, List.getD_eq_getElem?_getD, List.getElem?_replicate]
  split <;> rfl

/-- Settles O49: the registers are N zeros, and the session starts in RAM mode with access disabled. -/
theorem launchMeetsInvariant : Obligations.LaunchMeetsInvariant := by
  unfold Obligations.LaunchMeetsInvariant
  intro c m hc hwf hin
  exact ⟨hc, List.length_replicate, rfl, by rw [launch_reg]; rfl, fun _ => rfl, hwf, hin⟩

/-- Settles O48: the default configuration is admissible, and an empty memory is canonical. -/
theorem resetMeetsInvariant : Obligations.ResetMeetsInvariant := by
  unfold Obligations.ResetMeetsInvariant
  exact launchMeetsInvariant Config.default [] (by decide) rfl rfl

/-- Settles O50: the values are those that `State.launch` writes. -/
theorem sessionStartValues : Obligations.SessionStartValues := by
  unfold Obligations.SessionStartValues
  intro c m
  exact ⟨List.length_replicate, fun _ => launch_reg, rfl, rfl, rfl, rfl, rfl, rfl, rfl, rfl, rfl, rfl⟩

end Sys2Proof.Machine
end

section
/-! PROOF. The rows together are the spec's two functions (40_bus_writes.md R113, 41_bus_reads.md R134). -/

namespace Sys2Proof.Machine

variable {a : Word16} {d : Byte} {s : State}

/-! ### The address, as the two functions compute with it -/

theorem window_of_shift {n : BitVec 3} (h : a.extractLsb' 13 3 = n) : a.toNat >>> 13 = n.toNat := by
  rw [Nat.shiftRight_eq_div_pow]
  exact window_eq_iff.1 h

theorem isWriteTo_busWord {n : BitVec 3} (h : a.extractLsb' 13 3 = n) : isWriteTo n (busWord true a d) :=
  ⟨fieldRw_busWord, fieldWin_busWord.trans h⟩

/-- a & 0x7F is the masked address (R9). -/
theorem toNat_and_register : (a &&& 0x7F#16).toNat = (a.extractLsb' 0 7).toNat := by
  rw [toNat_maskedAddress, BitVec.toNat_and]
  exact Nat.and_two_pow_sub_one_eq_mod a.toNat 7

/-- a & 0x1FFF is OFF13 (R70, R132). -/
theorem toNat_and_offset : (a &&& 0x1FFF#16).toNat = (a.extractLsb' 0 13).toNat := by
  rw [BitVec.extractLsb'_toNat, Nat.shiftRight_zero, BitVec.toNat_and]
  exact Nat.and_two_pow_sub_one_eq_mod a.toNat 13

theorem and_register_eq_zero_iff : a &&& 0x7F#16 = 0#16 ↔ a.extractLsb' 0 7 = 0#7 := by
  rw [← BitVec.toNat_inj, ← BitVec.toNat_inj, toNat_and_register]
  rfl

/-! ### Writes -/

theorem busWrite_windowZero (h : a.extractLsb' 13 3 = 0#3) :
    exec (decode s.registersActive (busWord true a d)) s = busWrite a d s := by
  have hw : a.toNat >>> 13 = 0 := window_of_shift h
  rw [decode_windowZero (isWriteTo_busWord h), fieldD_busWord]
  simp only [busWrite, hw]
  split_ifs with h0 hA hr
  · rfl
  · exact exec_wrRamEnable_withRam hr
  · exact exec_wrRamEnable_noRam (eq_false_of_ne_true hr)
  · rfl

theorem romBankOf_eq_setWidth : romBankOf d = (d &&& 0x3F#8).setWidth 6 := by
  apply BitVec.eq_of_toNat_eq
  have hlt := (romBankOf d).isLt
  rw [toNat_romBankOf] at hlt
  rw [toNat_romBankOf, BitVec.toNat_setWidth, Nat.mod_eq_of_lt hlt]

theorem busWrite_windowTwo (h : a.extractLsb' 13 3 = 2#3) :
    exec (decode s.registersActive (busWord true a d)) s = busWrite a d s := by
  have hw : a.toNat >>> 13 = 2 := window_of_shift h
  have hbank : d.extractLsb' 0 4 = d.setWidth 4 := BitVec.setWidth_eq_extractLsb' (by omega) |>.symm
  rw [decode_windowTwo (isWriteTo_busWord h), fieldD_busWord, hbank]
  simp only [busWrite, hw]
  split_ifs with hd
  · rfl
  · rfl

/-- The store of a trigger write lands in the file, and a fault or refusal of its capture skips it (R110, R113). -/
theorem busWrite_trigger {ign : BitVec 6} (hN : 54 ≤ s.config.regCount) (hra : ¬ s.registersActive = false)
    (h : a.extractLsb' 13 3 = 5#3) (hm : a.extractLsb' 0 7 = 0#7) (hd : d.getLsbD 0 = true) :
    exec (.wrCamTrigger ign d) s = busWrite a d s := by
  have hw : a.toNat >>> 13 = 5 := window_of_shift h
  have hr : (a &&& 0x7F#16).toNat = 0 := by rw [toNat_and_register, hm]; rfl
  simp only [busWrite, hw, hr, hd, and_self, if_true]
  rw [if_neg hra, show ({ s with dirty := true } : State) = s.setDirty true from rfl]
  cases hcap : capture (s.setDirty true) with
  | next u =>
    have hpos : 0 < u.config.regCount := by
      rw [capture_frame hcap]
      exact lt_of_lt_of_le (by omega) hN
    rw [exec_wrCamTrigger_of_capture ign d hcap]
    simp only [hpos, if_true]
    rfl
  | fault q => exact exec_wrCamTrigger_of_fault ign d hcap
  | refused q => exact exec_wrCamTrigger_of_refused ign d hcap

theorem busWrite_register {ign : BitVec 6} (hra : ¬ s.registersActive = false) (h : a.extractLsb' 13 3 = 5#3)
    (hn : ¬ (a.extractLsb' 0 7 = 0#7 ∧ d.getLsbD 0 = true)) :
    exec (.wrCamReg ign (a.extractLsb' 0 7) d) s = busWrite a d s := by
  have hw : a.toNat >>> 13 = 5 := window_of_shift h
  have hn' : ¬ ((a.extractLsb' 0 7).toNat = 0 ∧ d.getLsbD 0 = true) := fun hc => hn ⟨BitVec.eq_of_toNat_eq hc.1, hc.2⟩
  simp only [busWrite, hw, toNat_and_register, hn', if_false]
  rw [if_neg hra]
  by_cases hr : (a.extractLsb' 0 7).toNat < s.config.regCount
  · rw [exec_wrCamReg_stored hr, if_pos hr]
    rfl
  · rw [exec_wrCamReg_dropped (not_lt.1 hr), if_neg hr]

theorem busWrite_windowFive (hN : 54 ≤ s.config.regCount) (h : a.extractLsb' 13 3 = 5#3) :
    exec (decode s.registersActive (busWord true a d)) s = busWrite a d s := by
  obtain ⟨hrw, hwin⟩ := isWriteTo_busWord (d := d) h
  rw [decode, if_pos hrw, decodeWrite_windowFive hwin, fieldM7_busWord, fieldD_busWord]
  split_ifs with hra htrig
  · have hw : a.toNat >>> 13 = 5 := window_of_shift h
    simp only [busWrite, hw, hra, if_true]
    rfl
  · exact busWrite_trigger hN hra h htrig.1 htrig.2
  · exact busWrite_register hra h htrig

/-- Settles O57: window by window, the decoder's row and the function's branch are the same. -/
theorem writeDispatch : Obligations.WriteDispatch := by
  unfold Obligations.WriteDispatch
  intro a d s hN
  obtain h | h | h | h | h | h | h | h := window_cases (a.extractLsb' 13 3)
  · exact busWrite_windowZero h
  · have hw : a.toNat >>> 13 = 1 := window_of_shift h
    rw [decode_windowOne (isWriteTo_busWord h), fieldD_busWord]
    simp only [busWrite, hw, ← romBankOf_eq_setWidth]
    rfl
  · exact busWrite_windowTwo h
  · have hw : a.toNat >>> 13 = 3 := window_of_shift h
    rw [decode_windowThree (isWriteTo_busWord h)]
    simp only [busWrite, hw]
    rfl
  · have hw : a.toNat >>> 13 = 4 := window_of_shift h
    rw [decode_windowFour (isWriteTo_busWord h)]
    simp only [busWrite, hw]
    rfl
  · exact busWrite_windowFive hN h
  · have hw : a.toNat >>> 13 = 6 := window_of_shift h
    rw [decode_windowSix (isWriteTo_busWord h)]
    simp only [busWrite, hw]
    rfl
  · have hw : a.toNat >>> 13 = 7 := window_of_shift h
    rw [decode_windowSeven (isWriteTo_busWord h)]
    simp only [busWrite, hw]
    rfl

/-! ### Reads -/

theorem busRead_registers (hra : s.registersActive = true) (h : a.extractLsb' 13 3 = 5#3) {ign : BitVec 6} :
    exec (if a.extractLsb' 0 7 = 0#7 then .rdCamCtrl ign else .rdCamZero ign (a.extractLsb' 0 7)) s = busRead a s := by
  have hw : a.toNat >>> 13 = 5 := window_of_shift h
  simp only [busRead, hw, ne_eq, not_true_eq_false, if_false, and_register_eq_zero_iff]
  rw [if_pos hra]
  split_ifs with hm
  · rfl
  · rfl

theorem busRead_ram (hra : ¬ s.registersActive = true) (h : a.extractLsb' 13 3 = 5#3) :
    exec (.rdCamRam (a.extractLsb' 0 13)) s = busRead a s := by
  have hw : a.toNat >>> 13 = 5 := window_of_shift h
  simp only [busRead, hw, ne_eq, not_true_eq_false, if_false, toNat_and_offset]
  rw [if_neg hra]
  split_ifs with hoff hle
  · exact exec_rdCamRam_disabled hoff
  · obtain ⟨hp, he⟩ : s.config.ramPresent = true ∧ s.ramEnable = true := by simpa using hoff
    exact exec_rdCamRam_outside hp he hle
  · obtain ⟨hp, he⟩ : s.config.ramPresent = true ∧ s.ramEnable = true := by simpa using hoff
    exact exec_rdCamRam_inside hp he (not_le.1 hle)

theorem busRead_unrouted (h : a.extractLsb' 13 3 ≠ 5#3) : busRead a s = refuse .readUnrouted s := by
  have hw : a.toNat >>> 13 ≠ 5 := fun h5 => h (window_eq_iff.2 (by rwa [Nat.shiftRight_eq_div_pow] at h5))
  exact if_pos hw

/-- Settles O58: window 5 in either mode, and the reads that are refused. -/
theorem readDispatch : Obligations.ReadDispatch := by
  unfold Obligations.ReadDispatch
  intro a d s
  rw [decode, fieldRw_busWord, if_neg Bool.false_ne_true]
  by_cases h5 : a.extractLsb' 13 3 = 5#3
  · rw [decodeRead_windowFive (fieldWin_busWord.trans h5), fieldM7_busWord, fieldOff_busWord]
    cases hra : s.registersActive with
    | false => exact busRead_ram (by simp [hra]) h5
    | true => exact busRead_registers hra h5
  · have hwin : fieldWin (busWord false a d) ≠ 5#3 := by rwa [fieldWin_busWord]
    rw [busRead_unrouted h5]
    obtain ⟨_, hi⟩ | ⟨_, hi⟩ | ⟨_, hi⟩ := decodeRead_unrouted (ra := s.registersActive) hwin
    · rw [hi]; rfl
    · rw [hi]; rfl
    · rw [hi]; rfl

end Sys2Proof.Machine
end
